-- ==== Sys2Proof/Word.lean ====
section
/-! DEFINITION. The word types of the machine (00_scope.md R4, R6): all values are unsigned. -/

namespace Sys2Proof

/-- An 8-bit value: a general register, a timer, a byte of memory (00_scope.md R6). -/
abbrev Byte := BitVec 8

/-- A 16-bit value: `I`, `pc`, a stack entry, an instruction word (00_scope.md R6). -/
abbrev Word := BitVec 16

/-- The number of a general register, or of a key: 0 to 15 (10_state.md R11, R24). -/
abbrev Reg := Fin 16

/-- The register `V[0]`, the offset of `Bnnn` (10_state.md R11). -/
abbrev reg0 : Reg := 0

/-- The register `V[F]`, the flag output (10_state.md R12). -/
abbrev regF : Reg := 15

end Sys2Proof
end

