-- ==== Sys2Proof/Decode.lean ====
section
/-! DEFINITION. The one instruction format (30_encoding.md R50 to R52), the decoder (R53), the opcode table (R55) and the
encoder. Decoding is total: a word that matches no row is rejected by the name `unmatched`, which is no error of the
machine (R56): the cycle runs it as a no-op (Sys2Proof/Machine/Cycle.lean). -/

namespace Sys2Proof

/-! ## The fields of the word (R51) -/

/-- `n0 = w[15:12]`, the major opcode. -/
def fieldN0 (w : Word) : BitVec 4 := w.extractLsb' 12 4

/-- `x = w[11:8]`, a register number. -/
def fieldX (w : Word) : Reg := (w.extractLsb' 8 4).toFin

/-- `y = w[7:4]`, a register number. -/
def fieldY (w : Word) : Reg := (w.extractLsb' 4 4).toFin

/-- `n = w[3:0]`, a number 0 to 15. -/
def fieldN (w : Word) : Nat := (w.extractLsb' 0 4).toNat

/-- `kk = w[7:0]`, the 8-bit immediate. -/
def fieldKK (w : Word) : Byte := w.extractLsb' 0 8

/-- `nnn = w[11:0]`, the 12-bit immediate. -/
def fieldNNN (w : Word) : BitVec 12 := w.extractLsb' 0 12

/-! ## The decoder (R53) -/

/-- Why the decoder answers no instruction. -/
inductive DecodeReject where
  /-- The word matches no row of R55. Not an error: the cycle runs it by R56. -/
  | unmatched (w : Word)
  /-- Fewer than two bytes were given; a fetch never does this, for it reads both bytes or faults (20_memory.md R36). -/
  | truncated
  deriving DecidableEq, Repr

/-- Group 0: the whole word is compared with 0x00E0 and 0x00EE. -/
def decodeGroup0 (w : Word) : Except DecodeReject Instr :=
  if w = 0x00E0 then .ok .cls
  else if w = 0x00EE then .ok .ret
  else .error (.unmatched w)

/-- Group 8: selected on `n` among 0 to 7 and E. -/
def decodeGroup8 (w : Word) : Except DecodeReject Instr :=
  match fieldN w with
  | 0x0 => .ok (.ldReg (fieldX w) (fieldY w))
  | 0x1 => .ok (.orReg (fieldX w) (fieldY w))
  | 0x2 => .ok (.andReg (fieldX w) (fieldY w))
  | 0x3 => .ok (.xorReg (fieldX w) (fieldY w))
  | 0x4 => .ok (.addReg (fieldX w) (fieldY w))
  | 0x5 => .ok (.subReg (fieldX w) (fieldY w))
  | 0x6 => .ok (.shr (fieldX w))
  | 0x7 => .ok (.subnReg (fieldX w) (fieldY w))
  | 0xE => .ok (.shl (fieldX w))
  | _ => .error (.unmatched w)

/-- Group E: `kk` is compared with 0x9E and 0xA1. -/
def decodeGroupE (w : Word) : Except DecodeReject Instr :=
  match (fieldKK w).toNat with
  | 0x9E => .ok (.skp (fieldX w))
  | 0xA1 => .ok (.sknp (fieldX w))
  | _ => .error (.unmatched w)

/-- Group F: `kk` is compared with the nine values of R53. -/
def decodeGroupF (w : Word) : Except DecodeReject Instr :=
  match (fieldKK w).toNat with
  | 0x07 => .ok (.ldVDT (fieldX w))
  | 0x0A => .ok (.ldVK (fieldX w))
  | 0x15 => .ok (.ldDTV (fieldX w))
  | 0x18 => .ok (.ldSTV (fieldX w))
  | 0x1E => .ok (.addI (fieldX w))
  | 0x29 => .ok (.ldF (fieldX w))
  | 0x33 => .ok (.ldB (fieldX w))
  | 0x55 => .ok (.storeRegs (fieldX w))
  | 0x65 => .ok (.loadRegs (fieldX w))
  | _ => .error (.unmatched w)

/-- Decode one word: select on `n0`, then as R53 says for the group. A function of the 16 bits alone. -/
def decodeWord (w : Word) : Except DecodeReject Instr :=
  match (fieldN0 w).toNat with
  | 0x0 => decodeGroup0 w
  | 0x1 => .ok (.jp (fieldNNN w))
  | 0x2 => .ok (.call (fieldNNN w))
  | 0x3 => .ok (.seImm (fieldX w) (fieldKK w))
  | 0x4 => .ok (.sneImm (fieldX w) (fieldKK w))
  | 0x5 => if fieldN w = 0 then .ok (.seReg (fieldX w) (fieldY w)) else .error (.unmatched w)
  | 0x6 => .ok (.ldImm (fieldX w) (fieldKK w))
  | 0x7 => .ok (.addImm (fieldX w) (fieldKK w))
  | 0x8 => decodeGroup8 w
  | 0x9 => if fieldN w = 0 then .ok (.sneReg (fieldX w) (fieldY w)) else .error (.unmatched w)
  | 0xA => .ok (.ldI (fieldNNN w))
  | 0xB => .ok (.jpV0 (fieldNNN w))
  | 0xC => .ok (.rnd (fieldX w) (fieldKK w))
  | 0xD => .ok (.drw (fieldX w) (fieldY w) (fieldN w))
  | 0xE => decodeGroupE w
  | 0xF => decodeGroupF w
  | _ => .error (.unmatched w)

/-- The instruction word of two bytes, the byte at the lower address the high one (20_memory.md R32). -/
def wordOfBytes (hi lo : Byte) : Word := hi ++ lo

/-- The two bytes of a word as they lie in memory, the high byte first (20_memory.md R32). -/
def bytesOfWord (w : Word) : List Byte := [w.extractLsb' 8 8, w.extractLsb' 0 8]

/-- Decode the instruction that a list of bytes begins with, and the bytes after it. Every instruction is two bytes (R50). -/
def decode : List Byte → Except DecodeReject (Instr × List Byte)
  | hi :: lo :: rest => (decodeWord (wordOfBytes hi lo)).map fun i => (i, rest)
  | _ => .error .truncated

/-- The instruction the decoder reads from a word of spec/opcode_table.json: its low `nbits` bits are `w`, the others 0. -/
def decodeTableWord (nbits w : Nat) : Option Instr :=
  match decode (bytesOfWord (BitVec.ofNat 16 (w % 2 ^ nbits))) with
  | .ok (i, _) => some i
  | .error _ => none

/-! ## The encoder: the words of a well-formed instruction, from the patterns of R55 -/

/-- The word `op nnn`. -/
def formatNNN (op : BitVec 4) (nnn : BitVec 12) : Word := op ++ nnn

/-- The word `op x kk`. -/
def formatXKK (op : BitVec 4) (x : Reg) (kk : Byte) : Word := op ++ BitVec.ofNat 4 x.val ++ kk

/-- The word `op x y n`. -/
def formatXYN (op : BitVec 4) (x y : Reg) (n : BitVec 4) : Word :=
  op ++ BitVec.ofNat 4 x.val ++ BitVec.ofNat 4 y.val ++ n

/-- The word of a well-formed instruction, by the pattern column of R55. In `8xy6` and `8xyE`, whose field y is no operand,
y is written 0 (log 9). -/
def encode : Instr → Word
  | .cls => 0x00E0
  | .ret => 0x00EE
  | .jp nnn => formatNNN 0x1 nnn
  | .call nnn => formatNNN 0x2 nnn
  | .seImm x kk => formatXKK 0x3 x kk
  | .sneImm x kk => formatXKK 0x4 x kk
  | .seReg x y => formatXYN 0x5 x y 0x0
  | .ldImm x kk => formatXKK 0x6 x kk
  | .addImm x kk => formatXKK 0x7 x kk
  | .ldReg x y => formatXYN 0x8 x y 0x0
  | .orReg x y => formatXYN 0x8 x y 0x1
  | .andReg x y => formatXYN 0x8 x y 0x2
  | .xorReg x y => formatXYN 0x8 x y 0x3
  | .addReg x y => formatXYN 0x8 x y 0x4
  | .subReg x y => formatXYN 0x8 x y 0x5
  | .shr x => formatXYN 0x8 x 0 0x6
  | .subnReg x y => formatXYN 0x8 x y 0x7
  | .shl x => formatXYN 0x8 x 0 0xE
  | .sneReg x y => formatXYN 0x9 x y 0x0
  | .ldI nnn => formatNNN 0xA nnn
  | .jpV0 nnn => formatNNN 0xB nnn
  | .rnd x kk => formatXKK 0xC x kk
  | .drw x y n => formatXYN 0xD x y (BitVec.ofNat 4 n)
  | .skp x => formatXKK 0xE x 0x9E
  | .sknp x => formatXKK 0xE x 0xA1
  | .ldVDT x => formatXKK 0xF x 0x07
  | .ldVK x => formatXKK 0xF x 0x0A
  | .ldDTV x => formatXKK 0xF x 0x15
  | .ldSTV x => formatXKK 0xF x 0x18
  | .addI x => formatXKK 0xF x 0x1E
  | .ldF x => formatXKK 0xF x 0x29
  | .ldB x => formatXKK 0xF x 0x33
  | .storeRegs x => formatXKK 0xF x 0x55
  | .loadRegs x => formatXKK 0xF x 0x65

/-- The two bytes of an instruction in memory, high byte at the lower address (R50). -/
def encodeBytes (i : Instr) : List Byte := bytesOfWord (encode i)

/-! ## The opcode table (R55) -/

/-- A row of the opcode table. -/
structure OpcodeRow where
  pattern : String
  mask : Word
  matchBits : Word
  deriving DecidableEq, Repr

/-- "A word `w` matches a row iff `w & mask = match`" (R55). -/
def OpcodeRow.accepts (r : OpcodeRow) (w : Word) : Bool := w &&& r.mask == r.matchBits

/-- Rows 1 to 10 of R55. -/
def opcodeRowsA : List OpcodeRow :=
  [⟨"00E0", 0xFFFF, 0x00E0⟩, ⟨"00EE", 0xFFFF, 0x00EE⟩, ⟨"1nnn", 0xF000, 0x1000⟩, ⟨"2nnn", 0xF000, 0x2000⟩,
   ⟨"3xkk", 0xF000, 0x3000⟩, ⟨"4xkk", 0xF000, 0x4000⟩, ⟨"5xy0", 0xF00F, 0x5000⟩, ⟨"6xkk", 0xF000, 0x6000⟩,
   ⟨"7xkk", 0xF000, 0x7000⟩, ⟨"8xy0", 0xF00F, 0x8000⟩]

/-- Rows 11 to 23 of R55. -/
def opcodeRowsB : List OpcodeRow :=
  [⟨"8xy1", 0xF00F, 0x8001⟩, ⟨"8xy2", 0xF00F, 0x8002⟩, ⟨"8xy3", 0xF00F, 0x8003⟩, ⟨"8xy4", 0xF00F, 0x8004⟩,
   ⟨"8xy5", 0xF00F, 0x8005⟩, ⟨"8xy6", 0xF00F, 0x8006⟩, ⟨"8xy7", 0xF00F, 0x8007⟩, ⟨"8xyE", 0xF00F, 0x800E⟩,
   ⟨"9xy0", 0xF00F, 0x9000⟩, ⟨"Annn", 0xF000, 0xA000⟩, ⟨"Bnnn", 0xF000, 0xB000⟩, ⟨"Cxkk", 0xF000, 0xC000⟩,
   ⟨"Dxyn", 0xF000, 0xD000⟩]

/-- Rows 24 to 34 of R55. -/
def opcodeRowsC : List OpcodeRow :=
  [⟨"Ex9E", 0xF0FF, 0xE09E⟩, ⟨"ExA1", 0xF0FF, 0xE0A1⟩, ⟨"Fx07", 0xF0FF, 0xF007⟩, ⟨"Fx0A", 0xF0FF, 0xF00A⟩,
   ⟨"Fx15", 0xF0FF, 0xF015⟩, ⟨"Fx18", 0xF0FF, 0xF018⟩, ⟨"Fx1E", 0xF0FF, 0xF01E⟩, ⟨"Fx29", 0xF0FF, 0xF029⟩,
   ⟨"Fx33", 0xF0FF, 0xF033⟩, ⟨"Fx55", 0xF0FF, 0xF055⟩, ⟨"Fx65", 0xF0FF, 0xF065⟩]

/-- The 34 rows of R55, in its order. -/
def opcodeTable : List OpcodeRow := opcodeRowsA ++ opcodeRowsB ++ opcodeRowsC

/-- The place of an instruction's row in R55 and in spec/opcode_table.json, counted from 0. -/
def Instr.rowIndex : Instr → Nat
  | .cls => 0
  | .ret => 1
  | .jp _ => 2
  | .call _ => 3
  | .seImm _ _ => 4
  | .sneImm _ _ => 5
  | .seReg _ _ => 6
  | .ldImm _ _ => 7
  | .addImm _ _ => 8
  | .ldReg _ _ => 9
  | .orReg _ _ => 10
  | .andReg _ _ => 11
  | .xorReg _ _ => 12
  | .addReg _ _ => 13
  | .subReg _ _ => 14
  | .shr _ => 15
  | .subnReg _ _ => 16
  | .shl _ => 17
  | .sneReg _ _ => 18
  | .ldI _ => 19
  | .jpV0 _ => 20
  | .rnd _ _ => 21
  | .drw _ _ _ => 22
  | .skp _ => 23
  | .sknp _ => 24
  | .ldVDT _ => 25
  | .ldVK _ => 26
  | .ldDTV _ => 27
  | .ldSTV _ => 28
  | .addI _ => 29
  | .ldF _ => 30
  | .ldB _ => 31
  | .storeRegs _ => 32
  | .loadRegs _ => 33

end Sys2Proof
end

