-- ==== Sys2Proof/Config.lean ====
section
/-! DEFINITION. The implementation parameters of 00_scope.md R4, with exactly the values of that table, and the open
parameter `rand8` of R5 (b). The other open parameter, `FONT` (R5 (a)), is an argument of reset: its type is `Config.Font`
here, and the default table is `Sys2Proof.Machine.defaultFont` in Sys2Proof/Machine/Memory.lean. -/

namespace Sys2Proof.Config

/-- `MEM_SIZE`: bytes of memory (00_scope.md R4). -/
@[simp] abbrev memSize : Nat := 4096

/-- `FONT_SIZE`: font bytes, loaded at `FONT_BASE` = 0 (00_scope.md R4). -/
@[simp] abbrev fontSize : Nat := 80

/-- A value of the parameter `FONT : Fin 80 -> Byte` (00_scope.md R5 (a)), as plain data. -/
abbrev Font : Type := Vector Byte fontSize

/-- `GLYPH_BYTES`: bytes per glyph (00_scope.md R4). -/
@[simp] abbrev glyphBytes : Nat := 5

/-- `PROG_BASE`: load address of a program and reset value of `pc` (00_scope.md R4). -/
@[simp] abbrev progBase : Nat := 0x200

/-- `PROG_MAX`: the longest program image, `MEM_SIZE - PROG_BASE` (00_scope.md R4). -/
@[simp] abbrev progMax : Nat := 3584

/-- `STACK_DEPTH`: call-stack entries (00_scope.md R4). -/
@[simp] abbrev stackDepth : Nat := 16

/-- `FB_W`: framebuffer width in pixels (00_scope.md R4). -/
@[simp] abbrev fbWidth : Nat := 64

/-- `FB_SIZE`: pixels of the framebuffer, `FB_W * FB_H` (00_scope.md R4). -/
@[simp] abbrev fbSize : Nat := 2048

/-- `NKEYS`: keys (00_scope.md R4). -/
@[simp] abbrev numKeys : Nat := 16

/-- `rand8` (00_scope.md R5 (b), 44_random_keys_timers.md R121, 92_eei_decisions.md D17): the byte the outside supplies to
the n-th `Cxkk`, under no law. A FREE VALUE: no body, so nothing can be proved of any of its values (log 1). -/
opaque rand8 : Nat → Byte

end Sys2Proof.Config
end

