-- ==== Sys2Proof/Machine/State.lean ====
section
/-! DEFINITION. The state of the core, "exactly the tuple below and nothing else" (10_state.md R10), as plain data; the
reasons a step can stop; and the state after reset (R27). -/

namespace Sys2Proof.Machine

/-- What a `mem` access is for: the `kind` recorded by `AddressOutOfRange` (60_exceptions.md R140, R156). -/
inductive AccessKind where
  | fetch
  | load
  | store
  deriving DecidableEq, Repr

/-- The four faults of the machine (60_exceptions.md R140). Each is what the spec says the cycle reports to the host, so none
is a stop of the model's own. That the outcome carries no state is R143 (a): the faulting cycle changes nothing (log 3). -/
inductive Fault where
  /-- Code 1, raised by the fetch and by `Dxyn`, `Fx33`, `Fx55`, `Fx65` when an access reaches an address of 4096 or more,
  with the lowest such address of the access (R156). Safe: the fault the spec names. -/
  | addressOutOfRange (kind : AccessKind) (address : Nat)
  /-- Code 2, raised by `2nnn` with sixteen return addresses stacked (R141). Safe: the fault the spec names. -/
  | stackOverflow
  /-- Code 3, raised by `00EE` with an empty stack (R142). Safe: the fault the spec names. -/
  | stackUnderflow
  /-- Code 4, raised by `Ex9E` and `ExA1` when `V[x] >= 16`, with that value (R157). Safe: the fault the spec names. -/
  | keyIndexOutOfRange (index : Byte)
  deriving DecidableEq, Repr

/-- The code of a fault, a label of the spec only (60_exceptions.md R140, 92_eei_decisions.md D16). -/
def Fault.code : Fault → Nat
  | .addressOutOfRange _ _ => 1
  | .stackOverflow => 2
  | .stackUnderflow => 3
  | .keyIndexOutOfRange _ => 4

/-- Why the model gives no meaning. -/
inductive Refusal where
  /-- Raised by an arm of `exec` whose instruction has no meaning yet; every instruction of this model has one, so nothing
  raises it. Safe: the model stops where the hardware goes on. -/
  | notModelled (mnemonic : String)
  deriving DecidableEq, Repr

/-- `mem` (10_state.md R19) as the bytes that differ from their reset contents, addresses strictly rising. The canonical
form is `Memory.wf` of Sys2Proof/Machine/Memory.lean, and the reset contents `unlisted` there. -/
abbrev Memory := List Host.Cell

/-- `fb` (10_state.md R22), the "64×32 boolean grid, row-major, one bit per pixel": 32 rows, topmost first, bit `x` of a row
its pixel at column `x`. The index `fb[y*64 + x]` is `pixel` of Sys2Proof/Machine/Ops.lean. -/
abbrev Framebuffer := Vector (BitVec 64) 32

/-- The state of the core (10_state.md R10), under the spec's names. -/
structure State where
  /-- The general registers `V[0]` to `V[F]` (R11, R12). -/
  V : Vector Byte 16
  /-- The index register (R13). -/
  I : Word
  /-- The program counter: between cycles the address of the next instruction, within one that of its own (R14). -/
  pc : Word
  /-- The return addresses (R17). -/
  stack : Vector Word 16
  /-- How many return addresses are stacked: "stack pointer (0–16)" (R18). -/
  sp : Fin 17
  /-- The 4096 bytes of memory (R19). -/
  mem : Memory
  /-- The 2048 pixels (R22). -/
  fb : Framebuffer
  /-- The delay timer (R23). -/
  DT : Byte
  /-- The sound timer (R23). -/
  ST : Byte
  /-- The key levels, `true` for down (R24). -/
  key : Vector Bool 16
  /-- The MODEL's own, no state of the spec: how many random bytes have been taken. `Config.rand8 draws` is the next (log 1). -/
  draws : Nat
  deriving DecidableEq, Repr

/-- The state after reset: every element at its value in the table of 10_state.md R27 (70_reset_and_hazards.md R160,
45_host_operations.md R131), with the parameter `FONT` at its default (log 2); for any other `FONT` see `State.resetWith` in
Sys2Proof/Machine/Memory.lean. `mem` lists nothing, which is its reset contents; `draws` is a DESIGN CHOICE (log 1). -/
def State.reset : State where
  V := Vector.replicate 16 0
  I := 0
  pc := 0x200
  stack := Vector.replicate 16 0
  sp := 0
  mem := []
  fb := Vector.replicate 32 0
  DT := 0
  ST := 0
  key := Vector.replicate 16 false
  draws := 0

end Sys2Proof.Machine
end

