-- ==== Sys2Proof/Machine/Memory.lean ====
section
/-! DEFINITION. `mem` (10_state.md R19 to R21, 20_memory.md R31): the font, the reset contents, reading and writing one
byte, and the canonical form. The range checks are in Sys2Proof/Machine/Ops.lean. -/

namespace Sys2Proof.Machine

/-- Glyphs 0 to 7 of the default font of 10_state.md R21. PRESUMED (log 2): the spec marks the bytes general knowledge. -/
def fontLow : List Byte :=
  [0xF0, 0x90, 0x90, 0x90, 0xF0, 0x20, 0x60, 0x20, 0x20, 0x70, 0xF0, 0x10, 0xF0, 0x80, 0xF0, 0xF0, 0x10, 0xF0, 0x10, 0xF0,
   0x90, 0x90, 0xF0, 0x10, 0x10, 0xF0, 0x80, 0xF0, 0x10, 0xF0, 0xF0, 0x80, 0xF0, 0x90, 0xF0, 0xF0, 0x10, 0x20, 0x40, 0x40]

/-- Glyphs 8 to F of the default font of 10_state.md R21. PRESUMED (log 2). -/
def fontHigh : List Byte :=
  [0xF0, 0x90, 0xF0, 0x90, 0xF0, 0xF0, 0x90, 0xF0, 0x10, 0xF0, 0xF0, 0x90, 0xF0, 0x90, 0x90, 0xE0, 0x90, 0xE0, 0x90, 0xE0,
   0xF0, 0x80, 0x80, 0x80, 0xF0, 0xE0, 0x90, 0x90, 0x90, 0xE0, 0xF0, 0x80, 0xF0, 0x80, 0xF0, 0xF0, 0x80, 0xF0, 0x80, 0x80]

/-- The default the spec supplies for the parameter `FONT` (10_state.md R21; 92_eei_decisions.md D13). PRESUMED (log 2). A claim
about the machine that holds of every font is one about `State.resetWith FONT` for every `FONT`. -/
def defaultFont : Config.Font := Vector.ofFn fun i => (fontLow ++ fontHigh).getD i.val 0

/-- What an address that memory does not list reads as: the reset contents, "`mem[a] = FONT[a]` for `0 <= a < 80`, and
`mem[a] = 0`" above (10_state.md R19), at the default `FONT`. With another `FONT`, reset lists the bytes in which it differs
(`State.resetWith`). Addresses of 4096 and more are never accessed: every access is checked first. -/
def unlisted (a : Nat) : Byte := if a < Config.fontSize then (fontLow ++ fontHigh).getD a 0 else 0

/-- The canonical form of memory: addresses strictly rising and below 4096, no byte listed at its reset contents. -/
abbrev Memory.wf (m : Memory) : Prop :=
  m.Pairwise (fun p q => p.1 < q.1) ∧ ∀ p ∈ m, p.1 < Config.memSize ∧ p.2 ≠ unlisted p.1

/-- `mem[a]`, the raw byte with no check (00_scope.md R6). -/
def Memory.byte : Memory → Nat → Byte
  | [], a => unlisted a
  | (b, w) :: m, a => if a = b then w else Memory.byte m a

/-- Put the cell of address `a` in front of `m`, all of whose addresses are above `a`, unless it is at its reset contents. -/
def Memory.cons (a : Nat) (v : Byte) (m : Memory) : Memory := if v = unlisted a then m else (a, v) :: m

/-- `mem[a] <- v`, with no check, keeping the canonical form. -/
def Memory.put : Memory → Nat → Byte → Memory
  | [], a, v => Memory.cons a v []
  | (b, w) :: m, a, v =>
    if a < b then Memory.cons a v ((b, w) :: m)
    else if a = b then Memory.cons a v m
    else (b, w) :: Memory.put m a v

/-- `mem[a], ..., mem[a+n-1]`, lowest address first. -/
def Memory.bytes (m : Memory) (a n : Nat) : List Byte := (List.range n).map fun j => m.byte (a + j)

/-- `mem[a + j] <- v[j]` for every `j`. -/
def Memory.putBytes (m : Memory) (a : Nat) : List Byte → Memory
  | [] => m
  | v :: vs => Memory.putBytes (m.put a v) (a + 1) vs

/-- The state after reset of a machine whose parameter `FONT` is `FONT`: `mem[a]` is `FONT[a]` for a below 80, and every other
element has its value in the table of 10_state.md R27. `State.reset` is this state at `defaultFont`
(`State.resetWith_defaultFont` in Sys2Proof/Laws/Memory.lean). -/
def State.resetWith (FONT : Config.Font) : State := { State.reset with mem := Memory.putBytes [] 0 FONT.toList }

end Sys2Proof.Machine
end

