-- ==== Sys2Proof/Machine/Operands.lean ====
section
/-! DEFINITION. Operand forms: reading and writing the general registers (10_state.md R11), immediates (30_encoding.md R52),
the effective address (42_index_and_memory.md R100) and the decimal digits of `Fx33` (R104). -/

namespace Sys2Proof.Machine

/-- `V[x]`. None of the sixteen is hard-wired, banked or aliased (10_state.md R11). -/
def State.readV (s : State) (x : Reg) : Byte := s.V[x.val]

/-- `V[x] <- v` (10_state.md R11). -/
def State.writeV (s : State) (x : Reg) (v : Byte) : State := { s with V := s.V.set x.val v }

/-- The group `V[0]` to `V[x]` in order, as `Fx55` reads it (42_index_and_memory.md R105). -/
def State.readGroup (s : State) (x : Reg) : List Byte := s.V.toList.take (x.val + 1)

/-- `V[i] <- m[i]` for every `i` that `m` has, as `Fx65` writes it; registers beyond are unchanged (R106). -/
def State.writeGroup (s : State) (m : List Byte) : State :=
  { s with V := Vector.ofFn fun i : Fin 16 => m.getD i.val s.V[i.val] }

/-- `zext_16` of a byte (00_scope.md R6). -/
def zextByte (v : Byte) : Word := v.setWidth 16

/-- `zext_16(nnn)`: every immediate is unsigned and unscaled (30_encoding.md R52). -/
def zextAddr (nnn : BitVec 12) : Word := nnn.setWidth 16

/-- The base of every data address: `I` as a natural number, so that `I + offset` does not wrap (20_memory.md R35). -/
def State.base (s : State) : Nat := s.I.toNat

/-- "decimal digits of V[x] (hundreds, tens, units)", as the bytes that `Fx33` stores (42_index_and_memory.md R104). -/
def decimalDigits (a : Byte) : List Byte :=
  [BitVec.ofNat 8 (a.toNat / 100), BitVec.ofNat 8 (a.toNat / 10 % 10), BitVec.ofNat 8 (a.toNat % 10)]

end Sys2Proof.Machine
end

