-- ==== Sys2Proof/Machine/Flags.lean ====
section
/-! DEFINITION. The flag output (10_state.md R12): every value an instruction writes to `V[F]` as a flag, always 0x00 or
0x01. -/

namespace Sys2Proof.Machine

/-- A flag as the byte written to `V[F]`: "0x00 or 0x01" (10_state.md R12). -/
def flagByte (b : Bool) : Byte := if b then 1 else 0

/-- The carry of `8xy4`: 1 iff the 9-bit sum exceeds 255 (41_alu.md R87). -/
def carryOut (a b : Byte) : Bool := decide (a.toNat + b.toNat > 255)

/-- NOT-borrow of minuend `m` and subtrahend `s`: false iff `m < s` (41_alu.md R92). -/
def notBorrow (m s : Byte) : Bool := decide (m.toNat ≥ s.toNat)

/-- The bit `8xy6` shifts out, bit 0 (41_alu.md R89). -/
def bitOutLow (a : Byte) : Bool := a.getLsbD 0

/-- The bit `8xyE` shifts out, bit 7 (41_alu.md R91). -/
def bitOutHigh (a : Byte) : Bool := a.getLsbD 7

/-- Write a result and then a flag, the table's order for `8xy4`, `8xy5`, `8xy7`: with `x = F` the flag is what remains
(41_alu.md R80, 92_eei_decisions.md D7, log 15). -/
def State.writeResultThenFlag (s : State) (x : Reg) (v : Byte) (flag : Bool) : State :=
  (s.writeV x v).writeV regF (flagByte flag)

/-- Write a flag and then a result, the table's order for `8xy6`, `8xyE`: with `x = F` the result is what remains
(41_alu.md R80, 92_eei_decisions.md D7, log 15). -/
def State.writeFlagThenResult (s : State) (x : Reg) (v : Byte) (flag : Bool) : State :=
  (s.writeV regF (flagByte flag)).writeV x v

end Sys2Proof.Machine
end

