-- ==== Sys2Proof/Machine/Ops.lean ====
section
/-! DEFINITION. The shared operations: raising a fault, the checked access primitives of 20_memory.md R33 and R34, the fetch
(R36), the call stack (10_state.md R17, R18), the keys (R24), the framebuffer (R22), `pc` (R14), and the tick
(60_exceptions.md R150). -/

namespace Sys2Proof.Machine

/-! ## Faults (60_exceptions.md R143) -/

/-- Taking a fault, the one entry of every fault: "the cycle changes nothing", `step` returns the fault to the host, and
"control goes nowhere" (60_exceptions.md R143). So the outcome is the fault and no state. There is no return from a fault
in the machine (R146). -/
def raise (f : Fault) : Host.Outcome State Fault Refusal := .fault f

/-- Go on with the value of a checked operation, or take its fault. -/
def attempt {α : Type} (e : Except Fault α) (k : α → Host.Outcome State Fault Refusal) : Host.Outcome State Fault Refusal :=
  match e with
  | .ok a => k a
  | .error f => raise f

/-! ## Memory accesses (20_memory.md R33 to R36, R44) -/

/-- The range check of a whole access of `n` bytes: an access of no byte never faults, and the address recorded is the
lowest one out of range, `max(addr, 4096)` (20_memory.md R33, R34). -/
def checkRange (kind : AccessKind) (addr n : Nat) : Except Fault Unit :=
  if n ≥ 1 ∧ addr + n - 1 ≥ Config.memSize then .error (.addressOutOfRange kind (max addr Config.memSize)) else .ok ()

/-- `MemRead(addr, n)` (20_memory.md R33). -/
def State.memRead (s : State) (kind : AccessKind) (addr n : Nat) : Except Fault (List Byte) :=
  (checkRange kind addr n).map fun _ => s.mem.bytes addr n

/-- `MemWrite(addr, n, v)` with `n` the length of `v`: all or nothing (20_memory.md R34). -/
def State.memWrite (s : State) (addr : Nat) (v : List Byte) : Except Fault State :=
  (checkRange .store addr v.length).map fun _ => { s with mem := s.mem.putBytes addr v }

/-- The fetch: the big-endian word at `[pc, pc+1]`, at any `pc`, even or odd (20_memory.md R32, R36, R37). -/
def State.fetch (s : State) : Except Fault Word :=
  (checkRange .fetch s.pc.toNat 2).map fun _ => wordOfBytes (s.mem.byte s.pc.toNat) (s.mem.byte (s.pc.toNat + 1))

/-! ## The program counter (10_state.md R14) -/

/-- `pc <- target`. -/
def State.jump (s : State) (target : Word) : State := { s with pc := target }

/-- The ordinary case, `pc <- pc + 2`. -/
def State.advance (s : State) : State := s.jump (s.pc + 2)

/-- A conditional skip: "skip" means advance by 4 instead" (40_flow_and_skips.md R70, R79). -/
def State.skipIf (s : State) (c : Bool) : State := s.jump (if c then s.pc + 4 else s.pc + 2)

/-! ## The call stack (10_state.md R17, R18) -/

/-- `stack[sp] <- pc`, `sp <- sp + 1`; `StackOverflow` at `sp = 16` (40_flow_and_skips.md R73). -/
def State.push (s : State) : Except Fault State :=
  if h : s.sp.val < 16 then .ok { s with stack := s.stack.set s.sp.val s.pc, sp := ⟨s.sp.val + 1, by omega⟩ }
  else .error .stackOverflow

/-- `sp <- sp - 1` and the entry popped, which is not cleared; `StackUnderflow` at `sp = 0` (40_flow_and_skips.md R71). -/
def State.pop (s : State) : Except Fault (Word × State) :=
  if h : 0 < s.sp.val then
    .ok (s.stack[s.sp.val - 1]'(by omega), { s with sp := ⟨s.sp.val - 1, by omega⟩ })
  else .error .stackUnderflow

/-! ## The keypad (10_state.md R24) -/

/-- `key[k]` for a key number held in a register: `KeyIndexOutOfRange` from 16 on, no masking (60_exceptions.md R157). -/
def State.keyDownAt (s : State) (k : Byte) : Except Fault Bool :=
  if h : k.toNat < 16 then .ok s.key[k.toNat] else .error (.keyIndexOutOfRange k)

/-- The lowest-numbered key that is down, if any (44_random_keys_timers.md R124; 92_eei_decisions.md D6, log 14). -/
def State.lowestKeyDown (s : State) : Option (Fin 16) := (List.finRange 16).find? fun k => s.key[k.val]

/-! ## The framebuffer (10_state.md R22) -/

/-- `fb[d]`: column `d mod 64` of row `d / 64`. An index of 2048 or more names no pixel and is never formed. -/
def pixel (fb : Framebuffer) (d : Nat) : Bool :=
  (fb.toList.getD (d / Config.fbWidth) 0).getLsbD (d % Config.fbWidth)

/-- `fb[d] <- fb[d] ^ 1`. -/
def flipPixel (fb : Framebuffer) (d : Nat) : Framebuffer :=
  Vector.ofFn fun y : Fin 32 =>
    if y.val = d / Config.fbWidth then fb[y.val] ^^^ BitVec.twoPow 64 (d % Config.fbWidth) else fb[y.val]

/-- Every pixel off (43_display.md R110). -/
def clearedFb : Framebuffer := Vector.replicate 32 0

/-- The framebuffer and whether a set sprite bit has landed on a pixel that was on, while a sprite is drawn. -/
structure Canvas where
  fb : Framebuffer
  collided : Bool
  deriving DecidableEq, Repr

/-- The destination index of column `c` of row `r` of a sprite at `(xs, ys)`: only the final sum is reduced, and it is
reduced by flattened index (43_display.md R112; 90_conflicts.md C2; 92_eei_decisions.md D8, log 16). -/
def pixelIndex (xs ys : Byte) (r c : Nat) : Nat :=
  (xs.toNat + c + (ys.toNat + r) * Config.fbWidth) % Config.fbSize

/-- One sprite bit: a bit that is 0 does nothing, a bit that is 1 inverts its pixel and collides if it was on (R111). -/
def drawBit (xs ys : Byte) (row : Byte) (r c : Nat) (cv : Canvas) : Canvas :=
  if row.getLsbD (7 - c) then
    { fb := flipPixel cv.fb (pixelIndex xs ys r c), collided := cv.collided || pixel cv.fb (pixelIndex xs ys r c) }
  else cv

/-- One sprite row, most significant bit first (R111). -/
def drawRow (xs ys : Byte) (row : Byte) (r : Nat) (cv : Canvas) : Canvas :=
  (List.range 8).foldl (fun cv c => drawBit xs ys row r c cv) cv

/-- The rows of a sprite, the first of them row `r` (R111). -/
def drawRows (xs ys : Byte) : Nat → List Byte → Canvas → Canvas
  | _, [], cv => cv
  | r, row :: rows, cv => drawRows xs ys (r + 1) rows (drawRow xs ys row r cv)

/-! ## The tick (60_exceptions.md R150) -/

/-- One count down, "never underflows below 0". -/
def countDown (t : Byte) : Byte := if t.toNat > 0 then t - 1 else t

/-- The tick of a cycle that did not fault. -/
def State.tick (s : State) : State := { s with DT := countDown s.DT, ST := countDown s.ST }

end Sys2Proof.Machine
end

