-- ==== Sys2Proof/Machine/Alu.lean ====
section
/-! DEFINITION. Register load, arithmetic and logic (41_alu.md R80 to R92). Every source operand is read from the state the
instruction starts in, before any write (R80). -/

namespace Sys2Proof.Machine

/-- `6xkk` LD Vx, kk: "V[x] = kk" (R81). -/
def execLdImm (x : Reg) (kk : Byte) (s : State) : Host.Outcome State Fault Refusal :=
  .next (s.writeV x kk).advance

/-- `7xkk` ADD Vx, kk: "8-bit wraparound, no flag change" (R82). -/
def execAddImm (x : Reg) (kk : Byte) (s : State) : Host.Outcome State Fault Refusal :=
  .next (s.writeV x (s.readV x + kk)).advance

/-- `8xy0` LD Vx, Vy: "V[x] = V[y]" (R83). -/
def execLdReg (x y : Reg) (s : State) : Host.Outcome State Fault Refusal :=
  .next (s.writeV x (s.readV y)).advance

/-- `8xy1` OR Vx, Vy, with no flag (R84; 90_conflicts.md C5). -/
def execOr (x y : Reg) (s : State) : Host.Outcome State Fault Refusal :=
  .next (s.writeV x (s.readV x ||| s.readV y)).advance

/-- `8xy2` AND Vx, Vy, with no flag (R85; 90_conflicts.md C5). -/
def execAnd (x y : Reg) (s : State) : Host.Outcome State Fault Refusal :=
  .next (s.writeV x (s.readV x &&& s.readV y)).advance

/-- `8xy3` XOR Vx, Vy, with no flag (R86; 90_conflicts.md C5). -/
def execXor (x y : Reg) (s : State) : Host.Outcome State Fault Refusal :=
  .next (s.writeV x (s.readV x ^^^ s.readV y)).advance

/-- `8xy4` ADD Vx, Vy: result, then carry (R87). -/
def execAddReg (x y : Reg) (s : State) : Host.Outcome State Fault Refusal :=
  .next (s.writeResultThenFlag x (s.readV x + s.readV y) (carryOut (s.readV x) (s.readV y))).advance

/-- `8xy5` SUB Vx, Vy: result `V[x] - V[y]`, then not-borrow (R88). -/
def execSub (x y : Reg) (s : State) : Host.Outcome State Fault Refusal :=
  .next (s.writeResultThenFlag x (s.readV x - s.readV y) (notBorrow (s.readV x) (s.readV y))).advance

/-- `8xy6` SHR Vx: the bit shifted out, then the shifted value; `V[y]` plays no part (R89). -/
def execShr (x : Reg) (s : State) : Host.Outcome State Fault Refusal :=
  .next (s.writeFlagThenResult x (s.readV x >>> 1) (bitOutLow (s.readV x))).advance

/-- `8xy7` SUBN Vx, Vy: result `V[y] - V[x]`, then not-borrow (R90). -/
def execSubn (x y : Reg) (s : State) : Host.Outcome State Fault Refusal :=
  .next (s.writeResultThenFlag x (s.readV y - s.readV x) (notBorrow (s.readV y) (s.readV x))).advance

/-- `8xyE` SHL Vx: the bit shifted out, then the shifted value; `V[y]` plays no part (R91). -/
def execShl (x : Reg) (s : State) : Host.Outcome State Fault Refusal :=
  .next (s.writeFlagThenResult x (s.readV x <<< 1) (bitOutHigh (s.readV x))).advance

end Sys2Proof.Machine
end

