-- ==== Sys2Proof/Machine/Display.lean ====
section
/-! DEFINITION. The display instructions (43_display.md R110 to R114). -/

namespace Sys2Proof.Machine

/-- `00E0` CLS: "clear framebuffer"; `V[F]` is not touched (R110). -/
def execCls (s : State) : Host.Outcome State Fault Refusal :=
  .next { s with fb := clearedFb }.advance

/-- `Dxyn` DRW Vx, Vy, n: the sprite read is checked before anything is written, the position is the one the registers hold
at the start, and `V[F]` is the collision (R111; 92_eei_decisions.md D7, D9, log 11, log 15). -/
def execDrw (x y : Reg) (n : Nat) (s : State) : Host.Outcome State Fault Refusal :=
  attempt (s.memRead .load s.base n) fun rows =>
    let drawn := drawRows (s.readV x) (s.readV y) 0 rows { fb := s.fb, collided := false }
    .next ({ s with fb := drawn.fb }.writeV regF (flagByte drawn.collided)).advance

end Sys2Proof.Machine
end

