-- ==== Sys2Proof/Machine/Flow.lean ====
section
/-! DEFINITION. Control transfer and conditional skips (40_flow_and_skips.md R70 to R79), and the unmatched word
(30_encoding.md R56). `pc` on the right is the address of the instruction executed (10_state.md R14). -/

namespace Sys2Proof.Machine

/-- `00EE` RET: "pop call stack into PC (return); PC set to popped address + 2" (R71). -/
def execRet (s : State) : Host.Outcome State Fault Refusal :=
  attempt s.pop fun p => .next (p.2.jump (p.1 + 2))

/-- `1nnn` JP nnn: "set PC = nnn (no +2)" (R72). -/
def execJp (nnn : BitVec 12) (s : State) : Host.Outcome State Fault Refusal :=
  .next (s.jump (zextAddr nnn))

/-- `2nnn` CALL nnn: "push current PC onto call stack, PC = nnn (no +2)" (R73). -/
def execCall (nnn : BitVec 12) (s : State) : Host.Outcome State Fault Refusal :=
  attempt s.push fun t => .next (t.jump (zextAddr nnn))

/-- `Bnnn` JP V0, nnn: "PC = nnn + V[0] (no +2)" (R74). -/
def execJpV0 (nnn : BitVec 12) (s : State) : Host.Outcome State Fault Refusal :=
  .next (s.jump (zextAddr nnn + zextByte (s.readV reg0)))

/-- `3xkk` SE Vx, kk: "skip if V[x] == kk" (R75). -/
def execSeImm (x : Reg) (kk : Byte) (s : State) : Host.Outcome State Fault Refusal :=
  .next (s.skipIf (s.readV x == kk))

/-- `4xkk` SNE Vx, kk: "skip if V[x] != kk" (R76). -/
def execSneImm (x : Reg) (kk : Byte) (s : State) : Host.Outcome State Fault Refusal :=
  .next (s.skipIf (s.readV x != kk))

/-- `5xy0` SE Vx, Vy: "skip if V[x] == V[y]" (R77). -/
def execSeReg (x y : Reg) (s : State) : Host.Outcome State Fault Refusal :=
  .next (s.skipIf (s.readV x == s.readV y))

/-- `9xy0` SNE Vx, Vy: "skip if V[x] != V[y]" (R78). -/
def execSneReg (x y : Reg) (s : State) : Host.Outcome State Fault Refusal :=
  .next (s.skipIf (s.readV x != s.readV y))

/-- A word that matches no row: "permissive no-op, advance PC by 2", no fault (30_encoding.md R56). -/
def execUnmatched (s : State) : Host.Outcome State Fault Refusal := .next s.advance

end Sys2Proof.Machine
end

