-- ==== Sys2Proof/Machine/Index.lean ====
section
/-! DEFINITION. The index register and the memory instructions (42_index_and_memory.md R100 to R106). No memory access
changes `I` (R100). -/

namespace Sys2Proof.Machine

/-- `Annn` LD I, nnn: "I = nnn" (R101). -/
def execLdI (nnn : BitVec 12) (s : State) : Host.Outcome State Fault Refusal :=
  .next { s with I := zextAddr nnn }.advance

/-- `Fx1E` ADD I, Vx: "I = I + V[x], 16-bit wraparound", with no flag (R102). -/
def execAddI (x : Reg) (s : State) : Host.Outcome State Fault Refusal :=
  .next { s with I := s.I + zextByte (s.readV x) }.advance

/-- `Fx29` LD F, Vx: "I = V[x] * 5", `V[x]` not masked (R103; 92_eei_decisions.md D11, log 17). -/
def execLdF (x : Reg) (s : State) : Host.Outcome State Fault Refusal :=
  .next { s with I := zextByte (s.readV x) * BitVec.ofNat 16 Config.glyphBytes }.advance

/-- `Fx33` LD B, Vx: the decimal digits of `V[x]` to `I`, `I+1`, `I+2` (R104). -/
def execLdB (x : Reg) (s : State) : Host.Outcome State Fault Refusal :=
  attempt (s.memWrite s.base (decimalDigits (s.readV x))) fun t => .next t.advance

/-- `Fx55` LD [I], Vx: "store V[0..=x] into memory[I..I+x] inclusive" (R105). -/
def execStoreRegs (x : Reg) (s : State) : Host.Outcome State Fault Refusal :=
  attempt (s.memWrite s.base (s.readGroup x)) fun t => .next t.advance

/-- `Fx65` LD Vx, [I]: "load memory[I..I+x] inclusive into V[0..=x]" (R106). -/
def execLoadRegs (x : Reg) (s : State) : Host.Outcome State Fault Refusal :=
  attempt (s.memRead .load s.base (x.val + 1)) fun m => .next (s.writeGroup m).advance

end Sys2Proof.Machine
end

