-- ==== Sys2Proof/Machine/System.lean ====
section
/-! DEFINITION. The random, keypad and timer instructions (44_random_keys_timers.md R120 to R127). -/

namespace Sys2Proof.Machine

/-- The effect of `Cxkk` for one value of its input byte: "V[x] = uniformly random byte AND kk" (R121). -/
def State.drawRandom (s : State) (rand8 : Byte) (x : Reg) (kk : Byte) : State := s.writeV x (rand8 &&& kk)

/-- `Cxkk` RND Vx, kk, with the free byte that `draws` selects; the next `Cxkk` has another (R121; log 1). -/
def execRnd (x : Reg) (kk : Byte) (s : State) : Host.Outcome State Fault Refusal :=
  .next { s.drawRandom (Config.rand8 s.draws) x kk with draws := s.draws + 1 }.advance

/-- `Ex9E` SKP Vx: "skip if keypad[V[x]] is down" (R122). -/
def execSkp (x : Reg) (s : State) : Host.Outcome State Fault Refusal :=
  attempt (s.keyDownAt (s.readV x)) fun down => .next (s.skipIf down)

/-- `ExA1` SKNP Vx: "skip if keypad[V[x]] is up" (R123). -/
def execSknp (x : Reg) (s : State) : Host.Outcome State Fault Refusal :=
  attempt (s.keyDownAt (s.readV x)) fun down => .next (s.skipIf (!down))

/-- `Fx07` LD Vx, DT: the timer as it stands before this cycle's tick (R125). -/
def execLdVDT (x : Reg) (s : State) : Host.Outcome State Fault Refusal :=
  .next (s.writeV x s.DT).advance

/-- `Fx0A` LD Vx, K: with no key down nothing is written and `pc` stays, so that the next cycle runs it again; else the
lowest key down is written (R124). -/
def execLdVK (x : Reg) (s : State) : Host.Outcome State Fault Refusal :=
  match s.lowestKeyDown with
  | none => .next s
  | some k => .next (s.writeV x (BitVec.ofNat 8 k.val)).advance

/-- `Fx15` LD DT, Vx: "delay timer = V[x]" (R126). -/
def execLdDTV (x : Reg) (s : State) : Host.Outcome State Fault Refusal :=
  .next { s with DT := s.readV x }.advance

/-- `Fx18` LD ST, Vx: "sound timer = V[x]" (R127). -/
def execLdSTV (x : Reg) (s : State) : Host.Outcome State Fault Refusal :=
  .next { s with ST := s.readV x }.advance

end Sys2Proof.Machine
end

