-- ==== Sys2Proof/Machine/Cycle.lean ====
section
/-! DEFINITION. One cycle (45_host_operations.md R132): fetch, decode, execute, tick. A fault ends it there, with no state
changed. -/

namespace Sys2Proof.Machine

/-- Phases 2 and 3: decode the word and run the one instruction it matches, or R56 if it matches none. -/
def execWord (w : Word) (s : State) : Host.Outcome State Fault Refusal :=
  match decodeWord w with
  | .ok i => exec i s
  | .error _ => execUnmatched s

/-- Phase 4: the tick ends every cycle that did not fault, whatever the instruction (R132, 60_exceptions.md R150). -/
def endCycle : Host.Outcome State Fault Refusal → Host.Outcome State Fault Refusal
  | .next t => .next t.tick
  | .fault f => .fault f
  | .refused r => .refused r

/-- The four phases of `step`, in order (R132). -/
def cycle (s : State) : Host.Outcome State Fault Refusal :=
  attempt s.fetch fun w => endCycle (execWord w s)

end Sys2Proof.Machine
end

