-- ==== Sys2Proof/Machine/Step.lean ====
section
/-! DEFINITION. The step function, and how an instruction is placed where it fetches. -/

namespace Sys2Proof.Machine

/-- `step`: "performs exactly one cycle" (45_host_operations.md R130, R132). Its input `rand8` is the free value that the
state's `draws` selects (R134, log 1). -/
def step (s : State) : Host.Outcome State Fault Refusal := cycle s

/-- `s` with one instruction word where `step` fetches next: the two bytes of the word at `pc` and `pc + 1`, high byte
first. Where `pc` is at no address a fetch can start at (20_memory.md R36), `pc` is 0x200, as after a load (log 5). -/
def State.withFetchWord (s : State) (nbits w : Nat) : State :=
  let place : Word := if s.pc.toNat + 1 < Config.memSize then s.pc else BitVec.ofNat 16 Config.progBase
  { s with pc := place, mem := s.mem.putBytes place.toNat (bytesOfWord (BitVec.ofNat 16 (w % 2 ^ nbits))) }

end Sys2Proof.Machine
end

