-- ==== Sys2Proof/Machine/HostOps.lean ====
section
/-! DEFINITION. The operations the outside world performs on the core (45_host_operations.md R130 to R139), each atomic and
only between cycles (R139). -/

namespace Sys2Proof.Machine

/-- The results of a load that fails: no faults, and "the machine remains in its pre-load state" (60_exceptions.md R149). -/
inductive LoadError where
  | emptyProgram
  | programTooLarge
  deriving DecidableEq, Repr

/-- `load_program(bytes)`: the image to 0x200 upward and `pc <- 0x200`, nothing else (R133). -/
def State.loadProgram (s : State) (bytes : List Byte) : Except LoadError State :=
  if bytes.length = 0 then .error .emptyProgram
  else if bytes.length > Config.progMax then .error .programTooLarge
  else .ok { s with mem := s.mem.putBytes Config.progBase bytes, pc := BitVec.ofNat 16 Config.progBase }

/-- Set the level of key `k`; a number of 16 or more is "no-op (not an error)" (R135, R136). -/
def State.setKey (s : State) (k : Nat) (down : Bool) : State :=
  if h : k < 16 then { s with key := s.key.set k down } else s

/-- `key_down(k)` (R135). -/
def State.keyDown (s : State) (k : Nat) : State := s.setKey k true

/-- `key_up(k)` (R136). -/
def State.keyUp (s : State) (k : Nat) : State := s.setKey k false

/-- `display()`: the 2048 pixels, element `y*64 + x` the pixel at column `x`, row `y` (R137). -/
def State.display (s : State) : List Bool := (List.range Config.fbSize).map (pixel s.fb)

/-- The operations of R130. -/
inductive HostOp where
  | reset
  | step
  | loadProgram (bytes : List Byte)
  | keyDown (k : Nat)
  | keyUp (k : Nat)
  | display
  | readState
  deriving DecidableEq, Repr

/-- What an operation of R130 answers. -/
inductive HostResult where
  /-- Reset, `key_down` and `key_up` answer nothing. -/
  | none
  | ok
  | fault (f : Fault)
  /-- Only for an instruction with no meaning, of which there is none. -/
  | refused (r : Refusal)
  | loadError (e : LoadError)
  | pixels (p : List Bool)
  | state (s : State)
  deriving DecidableEq, Repr

/-- One operation of the host on a machine with the parameter `FONT`: the state after it and its result. Only reset uses
`FONT`, and it does not look at the state before (R131) but for `draws`: the random source is outside the core (log 1). A
cycle that faults leaves the state as it was and reports the fault (60_exceptions.md R143). `display` and reading the state
change nothing (R137, R138). -/
def perform (FONT : Config.Font) (op : HostOp) (s : State) : State × HostResult :=
  match op with
  | .reset => ({ State.resetWith FONT with draws := s.draws }, .none)
  | .step =>
    match step s with
    | .next t => (t, .ok)
    | .fault f => (s, .fault f)
    | .refused r => (s, .refused r)
  | .loadProgram bytes =>
    match s.loadProgram bytes with
    | .ok t => (t, .ok)
    | .error e => (s, .loadError e)
  | .keyDown k => (s.keyDown k, .none)
  | .keyUp k => (s.keyUp k, .none)
  | .display => (s, .pixels s.display)
  | .readState => (s, .state s)

/-- A run: operations in their total order (R139), and the state after the last. -/
def performAll (FONT : Config.Font) : List HostOp → State → State
  | [], s => s
  | op :: ops, s => performAll FONT ops (perform FONT op s).1

end Sys2Proof.Machine
end

