-- ==== Sys2Proof/Safety.lean ====
section
/-! DEFINITION. The terms in which claims speak of runs: fault states (60_exceptions.md R145), the states a host can bring
about, and the end-of-run convention (70_reset_and_hazards.md R171). -/

namespace Sys2Proof.Machine

/-- "a state from which `step` faults is a fault state and is never the good end of a run" (60_exceptions.md R145). -/
def State.isFaultState (s : State) : Prop := ∃ f, step s = .fault f

/-- A cycle from `s` completes with `t`. -/
def CompletesTo (s t : State) : Prop := step s = .next t

/-- `k` cycles from `s` complete, the last with `t`. -/
def RunsTo : Nat → State → State → Prop
  | 0, s, t => s = t
  | k + 1, s, t => ∃ u, CompletesTo s u ∧ RunsTo k u t

/-- The cycle from `s` fetches and decodes the instruction `i`. -/
def State.executes (s : State) (i : Instr) : Prop := ∃ w, s.fetch = .ok w ∧ decodeWord w = .ok i

/-- `k` cycles from `s` complete, the last with `t`, and none of them executes an instruction of which `P` holds. -/
def RunsAvoiding (P : Instr → Prop) : Nat → State → State → Prop
  | 0, s, t => s = t
  | k + 1, s, t => ∃ u, CompletesTo s u ∧ (∀ i, s.executes i → ¬P i) ∧ RunsAvoiding P k u t

/-- The states that some sequence of host operations, cycles among them, brings about from reset, whatever `FONT` is. -/
def State.reachable (s : State) : Prop := ∃ FONT ops, s = performAll FONT ops (State.resetWith FONT)

/-- The end-of-run convention: "`pc` addresses a `1nnn` word whose `nnn` equals `pc`" (70_reset_and_hazards.md R171). -/
def State.spinsInPlace (s : State) : Prop :=
  ∃ nnn, s.executes (.jp nnn) ∧ nnn.toNat = s.pc.toNat

/-- The invariant of the machine: memory in its canonical form, `pc` no higher than 0x10FE (10_state.md R15), and every
return address on the stack one that a fetch has succeeded at, so at most 4094 (R15). -/
def State.inv (s : State) : Prop :=
  s.mem.wf ∧ s.pc.toNat ≤ 0x10FE ∧ ∀ i : Fin 16, i.val < s.sp.val → (s.stack[i.val]).toNat ≤ 4094

end Sys2Proof.Machine
end

