-- ==== Sys2Proof/Certificates/Slice0/Obligations.lean ====
section
/-! DEFINITION. The statements for the provers. First the vocabulary they share, then the statements, by file of spec/.

Where a statement rests on a decision of 92_eei_decisions.md (which the spec marks as its own and not the source's), its
docstring names it. `t.pc = s.pc + 2` is 16-bit addition; it does not wrap where a cycle executes, for the fetch needs
`pc <= 4094` (10_state.md R15, log 7). -/

namespace Sys2Proof.Machine

/-- `o` is a next state, of which `P` holds. -/
def Completes (o : Host.Outcome State Fault Refusal) (P : State → Prop) : Prop := ∃ t, o = .next t ∧ P t

/-- What an instruction may change beside `pc`: the registers named, and each other element only where the field says so.
The keys are never changed by an instruction (10_state.md R24). -/
structure Frame where
  regs : List Reg := []
  index : Bool := false
  callStack : Bool := false
  storeBase : Nat := 0
  storeLength : Nat := 0
  display : Bool := false
  delayTimer : Bool := false
  soundTimer : Bool := false
  randomDraws : Bool := false

/-- From `s` to `t` nothing has changed beside `pc` and what the frame names; memory byte by byte, outside the bytes
stored. -/
def Frame.holds (f : Frame) (s t : State) : Prop :=
  (∀ r, r ∉ f.regs → t.readV r = s.readV r) ∧
  (f.index = false → t.I = s.I) ∧
  (f.callStack = false → t.stack = s.stack ∧ t.sp = s.sp) ∧
  (∀ a, ¬(f.storeBase ≤ a ∧ a < f.storeBase + f.storeLength) → t.mem.byte a = s.mem.byte a) ∧
  (f.display = false → t.fb = s.fb) ∧
  (f.delayTimer = false → t.DT = s.DT) ∧
  (f.soundTimer = false → t.ST = s.ST) ∧
  t.key = s.key ∧
  (f.randomDraws = false → t.draws = s.draws)

/-- The bit of row `r` and column `c` of the sprite at `I` (43_display.md R111: bit 7 of a row byte is column 0). -/
def spriteBit (s : State) (r c : Nat) : Bool := (s.mem.byte (s.I.toNat + r)).getLsbD (7 - c)

/-- The destination index of R112 as its formula: `(V[x] + c + (V[y] + r) * 64) mod 2048`. -/
def destination (s : State) (x y : Reg) (r c : Nat) : Nat :=
  ((s.readV x).toNat + c + ((s.readV y).toNat + r) * 64) % 2048

/-- A sprite of `n` rows covers the pixel `d` with a set bit. -/
def Covers (s : State) (x y : Reg) (n d : Nat) : Prop :=
  ∃ r c, r < n ∧ c < 8 ∧ spriteBit s r c = true ∧ destination s x y r c = d

/-- The table of 60_exceptions.md R140 without its fetch row: the fault of each instruction and its condition. -/
def tableFault : Instr → State → Option Fault
  | .call _, s => if s.sp.val = 16 then some .stackOverflow else none
  | .ret, s => if s.sp.val = 0 then some .stackUnderflow else none
  | .skp x, s => if (s.readV x).toNat ≥ 16 then some (.keyIndexOutOfRange (s.readV x)) else none
  | .sknp x, s => if (s.readV x).toNat ≥ 16 then some (.keyIndexOutOfRange (s.readV x)) else none
  | .drw _ _ n, s =>
    if n ≥ 1 ∧ s.I.toNat + n - 1 ≥ 4096 then some (.addressOutOfRange .load (max s.I.toNat 4096)) else none
  | .ldB _, s => if s.I.toNat + 2 ≥ 4096 then some (.addressOutOfRange .store (max s.I.toNat 4096)) else none
  | .storeRegs x, s =>
    if s.I.toNat + x.val ≥ 4096 then some (.addressOutOfRange .store (max s.I.toNat 4096)) else none
  | .loadRegs x, s =>
    if s.I.toNat + x.val ≥ 4096 then some (.addressOutOfRange .load (max s.I.toNat 4096)) else none
  | _, _ => none

/-- The instructions that may write `V[r]` (10_state.md R11, R12): those whose `x` is `r`, the group load that reaches `r`,
and for `V[F]` those that write it as a flag. -/
def MayWriteV (r : Reg) : Instr → Prop
  | .ldImm x _ => r = x
  | .addImm x _ => r = x
  | .ldReg x _ => r = x
  | .orReg x _ => r = x
  | .andReg x _ => r = x
  | .xorReg x _ => r = x
  | .addReg x _ => r = x ∨ r = regF
  | .subReg x _ => r = x ∨ r = regF
  | .shr x => r = x ∨ r = regF
  | .subnReg x _ => r = x ∨ r = regF
  | .shl x => r = x ∨ r = regF
  | .rnd x _ => r = x
  | .drw _ _ _ => r = regF
  | .ldVDT x => r = x
  | .ldVK x => r = x
  | .loadRegs x => r ≤ x
  | _ => False

end Sys2Proof.Machine

open Sys2Proof Sys2Proof.Machine

/-! ## 30_encoding.md -/

/-- Words written out from the patterns of R55, one of each group, decode to the instructions they stand for: 00EE, 1ABC,
3A7F, 5120, 8F3E, C20F, D125, E39E, F265, and 8128, which is unmatched. -/
def Obligations.WrittenWordsDecode : Prop :=
  decodeWord 0b0000000011101110 = .ok .ret ∧
  decodeWord 0b0001101010111100 = .ok (.jp 0xABC) ∧
  decodeWord 0b0011101001111111 = .ok (.seImm 10 0x7F) ∧
  decodeWord 0b0101000100100000 = .ok (.seReg 1 2) ∧
  decodeWord 0b1000111100111110 = .ok (.shl 15) ∧
  decodeWord 0b1100001000001111 = .ok (.rnd 2 0x0F) ∧
  decodeWord 0b1101000100100101 = .ok (.drw 1 2 5) ∧
  decodeWord 0b1110001110011110 = .ok (.skp 3) ∧
  decodeWord 0b1111001001100101 = .ok (.loadRegs 2) ∧
  decodeWord 0b1000000100101000 = .error (.unmatched 0x8128)

/-- Every well-formed instruction decodes from its own word, and from its own two bytes whatever bytes follow. -/
def Obligations.DecodeEncodeRoundTrip : Prop :=
  ∀ i : Instr, i.wellFormed = true →
    decodeWord (encode i) = .ok i ∧ ∀ rest, decode (encodeBytes i ++ rest) = .ok (i, rest)

/-- Whatever word is decoded, the instruction is well formed (R52) and its word differs from the one decoded at most in the
field y of `8xy6` and `8xyE`, which is no operand (R55). That the encoder writes 0 in that field, so that the word is
`w &&& 0xFF0F`, is the model's own choice and no word of the spec (log 9). -/
def Obligations.DecodedIsWellFormedAndReencodes : Prop :=
  ∀ w i, decodeWord w = .ok i →
    i.wellFormed = true ∧ (encode i = w ∨ ((∃ x, i = .shr x ∨ i = .shl x) ∧ encode i = w &&& 0xFF0F))

/-- "A word `w` matches a row iff `w & mask = match`" (R55): the decoder gives the instruction of a row exactly for the words
that row matches, and rejects exactly the words that none of the 34 rows matches. -/
def Obligations.DecoderAgreesWithOpcodeTable : Prop :=
  opcodeTable.length = 34 ∧
  ∀ w, (∀ k row, opcodeTable[k]? = some row →
      (w &&& row.mask = row.matchBits ↔ ∃ i, decodeWord w = .ok i ∧ i.rowIndex = k)) ∧
    ((∃ e, decodeWord w = .error e) ↔ ∀ row ∈ opcodeTable, w &&& row.mask ≠ row.matchBits)

/-- "The patterns of rule R55 are pairwise disjoint (no word matches two rows)" (R53). -/
def Obligations.OpcodeRowsAreDisjoint : Prop :=
  ∀ (j k : Nat) (r q : OpcodeRow) (w : Word), opcodeTable[j]? = some r → opcodeTable[k]? = some q →
    w &&& r.mask = r.matchBits → w &&& q.mask = q.matchBits → j = k

/-- The unmatched words are exactly those R57 lists. -/
def Obligations.UnmatchedWordsExactly : Prop :=
  ∀ w : Word, (decodeWord w = .error (.unmatched w)) ↔
    (w.toNat / 4096 = 0x0 ∧ w ≠ 0x00E0 ∧ w ≠ 0x00EE) ∨
    (w.toNat / 4096 = 0x5 ∧ w.toNat % 16 ≠ 0) ∨
    (w.toNat / 4096 = 0x8 ∧ w.toNat % 16 ∈ [0x8, 0x9, 0xA, 0xB, 0xC, 0xD, 0xF]) ∨
    (w.toNat / 4096 = 0x9 ∧ w.toNat % 16 ≠ 0) ∨
    (w.toNat / 4096 = 0xE ∧ w.toNat % 256 ∉ [0x9E, 0xA1]) ∨
    (w.toNat / 4096 = 0xF ∧ w.toNat % 256 ∉ [0x07, 0x0A, 0x15, 0x18, 0x1E, 0x29, 0x33, 0x55, 0x65])

/-- The field y of `8xy6` and `8xyE` is no operand: "all sixteen values of `y` give the same instruction" (R55). -/
def Obligations.ShiftEncodingsIgnoreY : Prop :=
  ∀ x y : Reg, decodeWord (formatXYN 0x8 x y 0x6) = .ok (.shr x) ∧ decodeWord (formatXYN 0x8 x y 0xE) = .ok (.shl x)

/-- A word that matches no row of R55 "advances PC by 2 and performs no other effect" but the tick of its cycle (R56; that such
a cycle ticks is 92_eei_decisions.md D21, log 4). -/
def Obligations.UnmatchedWordIsNoOp : Prop :=
  ∀ (s : State) (w : Word), s.pc.toNat + 1 < 4096 →
    w = wordOfBytes (s.mem.byte s.pc.toNat) (s.mem.byte (s.pc.toNat + 1)) →
    (∀ row ∈ opcodeTable, w &&& row.mask ≠ row.matchBits) →
    Completes (step s) fun t =>
      t.pc.toNat = s.pc.toNat + 2 ∧ t.DT.toNat = s.DT.toNat - 1 ∧ t.ST.toNat = s.ST.toNat - 1 ∧
      Frame.holds { delayTimer := true, soundTimer := true } s t

/-! ## 20_memory.md -/

/-- The fetch reads the big-endian word at `[pc, pc+1]`, for every `pc`, odd or even, below 4095, and raises
`AddressOutOfRange(fetch, max(pc, 4096))` from 4095 on (R36); a cycle whose fetch faults is that fault. That an odd `pc` is
legal is R37 and 92_eei_decisions.md D12, log 17. -/
def Obligations.FetchReadsBigEndianOrFaults : Prop :=
  ∀ s : State,
    (s.pc.toNat + 1 < 4096 → ∃ w, s.fetch = .ok w ∧
      w.toNat = (s.mem.byte s.pc.toNat).toNat * 256 + (s.mem.byte (s.pc.toNat + 1)).toNat) ∧
    (4096 ≤ s.pc.toNat + 1 →
      s.fetch = .error (.addressOutOfRange .fetch (max s.pc.toNat 4096)) ∧
      step s = .fault (.addressOutOfRange .fetch (max s.pc.toNat 4096)))

/-- `MemWrite` and `MemRead` (R33, R34): in range, the bytes written read back and every other address reads as before; out
of range, the fault with the lowest address out of range, and reading no byte never faults (92_eei_decisions.md D2, D4). -/
def Obligations.ReadAfterWrite : Prop :=
  ∀ (s : State) (addr : Nat) (v : List Byte) (kind : AccessKind), s.mem.wf →
    (addr + v.length ≤ 4096 → ∃ t, s.memWrite addr v = .ok t ∧ t.memRead kind addr v.length = .ok v ∧
      ∀ a, ¬(addr ≤ a ∧ a < addr + v.length) → t.mem.byte a = s.mem.byte a) ∧
    (1 ≤ v.length → 4096 < addr + v.length →
      s.memWrite addr v = .error (.addressOutOfRange .store (max addr 4096)) ∧
      s.memRead kind addr v.length = .error (.addressOutOfRange kind (max addr 4096))) ∧
    s.memRead kind addr 0 = .ok []

/-- The model's own (the canonical form of memory): memories in that form that read alike at every address are equal. -/
def Obligations.MemoryIsCanonical : Prop :=
  ∀ m n : Memory, m.wf → n.wf → (∀ a, m.byte a = n.byte a) → m = n

/-- "Self-modifying code therefore works with no fence" (R42): bytes stored by `Fx55` are what a fetch from any two of their
addresses reads right after. -/
def Obligations.StoredBytesAreFetched : Prop :=
  ∀ (s t : State) (x i j : Reg) (target : Word), s.mem.wf → exec (.storeRegs x) s = .next t →
    j.val = i.val + 1 → j ≤ x → target.toNat = s.I.toNat + i.val →
    (t.jump target).fetch = .ok (wordOfBytes (s.readV i) (s.readV j))

/-! ## 45_host_operations.md: the cycle -/

/-- A step runs the decoded instruction (R132): where the two bytes at `pc` decode to `i`, the cycle is `exec` of `i` at that
state, then the tick; a fault of `exec` is the fault of the cycle. The tick is not in `exec`. That every cycle which does not
fault ticks, and one that faults does not, is 92_eei_decisions.md D21, D4 (log 4, log 3). -/
def Obligations.StepRunsDecodedInstruction : Prop :=
  ∀ (s : State) (i : Instr), s.pc.toNat + 1 < 4096 →
    decode [s.mem.byte s.pc.toNat, s.mem.byte (s.pc.toNat + 1)] = .ok (i, []) →
    (∀ t, exec i s = .next t → step s = .next { t with DT := countDown t.DT, ST := countDown t.ST }) ∧
    (∀ f, exec i s = .fault f → step s = .fault f)

/-- An instruction word placed where `step` fetches is what the next cycle runs (the model's own way to place one, log 5). -/
def Obligations.PlacedWordIsRun : Prop :=
  ∀ (s : State) (w : Nat) (i : Instr), s.mem.wf → decodeTableWord 16 w = some i →
    (s.withFetchWord 16 w).executes i

/-- No cycle ends in a refusal: every word has a meaning. -/
def Obligations.StepNeverRefuses : Prop := ∀ (s : State) (r : Refusal), step s ≠ .refused r

/-- "it reads `rand8` only when the fetched word matches `Cxkk`" (R134): any other cycle gives the same outcome whatever the
next random byte would be. -/
def Obligations.RandomByteReadOnlyByRnd : Prop :=
  ∀ (s : State) (n : Nat), (∀ x kk, ¬s.executes (.rnd x kk)) →
    (∀ t, step s = .next t → t.draws = s.draws ∧ step { s with draws := n } = .next { t with draws := n }) ∧
    (∀ f, step s = .fault f → step { s with draws := n } = .fault f)

/-- "it reads `key` only when the word matches `Ex9E`, `ExA1` or `Fx0A`" (R134): any other cycle gives the same outcome
whatever the keys are. -/
def Obligations.KeysReadOnlyByKeyInstructions : Prop :=
  ∀ (s : State) (k : Vector Bool 16), (∀ x, ¬s.executes (.skp x) ∧ ¬s.executes (.sknp x) ∧ ¬s.executes (.ldVK x)) →
    (∀ t, step s = .next t → t.key = s.key ∧ step { s with key := k } = .next { t with key := k }) ∧
    (∀ f, step s = .fault f → step { s with key := k } = .fault f)

/-! ## 40_flow_and_skips.md -/

/-- `1nnn`: `pc <- zext_16(nnn)` (R72); `Bnnn`: `pc <- nnn + V[0]`, not reduced modulo 4096 (R74). Nothing else. The first
clauses are the encodings, here and in the statements below that have them. -/
def Obligations.JumpsSetPc : Prop :=
  ∀ (s : State) (nnn : BitVec 12),
    decodeWord (formatNNN 0x1 nnn) = .ok (.jp nnn) ∧ decodeWord (formatNNN 0xB nnn) = .ok (.jpV0 nnn) ∧
    (Completes (exec (.jp nnn) s) fun t => t.pc.toNat = nnn.toNat ∧ Frame.holds {} s t) ∧
    (Completes (exec (.jpV0 nnn) s) fun t => t.pc.toNat = nnn.toNat + (s.readV 0).toNat ∧ Frame.holds {} s t)

/-- `3xkk` skips iff `V[x] = kk`, `4xkk` iff not (R75, R76). Nothing but `pc` is written. -/
def Obligations.ImmediateSkips : Prop :=
  ∀ (s : State) (x : Reg) (kk : Byte),
    decodeWord (formatXKK 0x3 x kk) = .ok (.seImm x kk) ∧ decodeWord (formatXKK 0x4 x kk) = .ok (.sneImm x kk) ∧
    (Completes (exec (.seImm x kk) s) fun t =>
      (s.readV x = kk → t.pc = s.pc + 4) ∧ (s.readV x ≠ kk → t.pc = s.pc + 2) ∧ Frame.holds {} s t) ∧
    (Completes (exec (.sneImm x kk) s) fun t =>
      (s.readV x ≠ kk → t.pc = s.pc + 4) ∧ (s.readV x = kk → t.pc = s.pc + 2) ∧ Frame.holds {} s t)

/-- `5xy0` skips iff `V[x] = V[y]`, `9xy0` iff not (R77, R78). Nothing but `pc` is written. With any other last digit the words
are unmatched. -/
def Obligations.RegisterSkips : Prop :=
  ∀ (s : State) (x y : Reg),
    decodeWord (formatXYN 0x5 x y 0) = .ok (.seReg x y) ∧ decodeWord (formatXYN 0x9 x y 0) = .ok (.sneReg x y) ∧
    (∀ n : BitVec 4, n ≠ 0 →
      decodeWord (formatXYN 0x5 x y n) = .error (.unmatched (formatXYN 0x5 x y n)) ∧
      decodeWord (formatXYN 0x9 x y n) = .error (.unmatched (formatXYN 0x9 x y n))) ∧
    (Completes (exec (.seReg x y) s) fun t =>
      (s.readV x = s.readV y → t.pc = s.pc + 4) ∧ (s.readV x ≠ s.readV y → t.pc = s.pc + 2) ∧ Frame.holds {} s t) ∧
    (Completes (exec (.sneReg x y) s) fun t =>
      (s.readV x ≠ s.readV y → t.pc = s.pc + 4) ∧ (s.readV x = s.readV y → t.pc = s.pc + 2) ∧ Frame.holds {} s t)

/-- `2nnn` with fewer than 16 return addresses stacked: its own address is stacked, every other entry stays, `sp` goes up by
1, `pc <- nnn`; with 16, `StackOverflow` (R73; the policy and the stack discipline are 92_eei_decisions.md D3, D14). -/
def Obligations.CallPushesOrOverflows : Prop :=
  ∀ (s : State) (nnn : BitVec 12),
    (s.sp.val < 16 → Completes (exec (.call nnn) s) fun t =>
      (∀ k : Fin 16, t.stack[k.val] = if k.val = s.sp.val then s.pc else s.stack[k.val]) ∧
      t.sp.val = s.sp.val + 1 ∧ t.pc.toNat = nnn.toNat ∧ Frame.holds { callStack := true } s t) ∧
    (s.sp.val = 16 → exec (.call nnn) s = .fault .stackOverflow)

/-- `00EE` with a return address stacked: `sp` goes down by 1, the entry popped is not cleared, `pc` is it plus 2; with none,
`StackUnderflow` (R71; the policy and the stack discipline are 92_eei_decisions.md D3, D14). -/
def Obligations.ReturnPopsOrUnderflows : Prop :=
  ∀ s : State,
    (∀ k : Fin 16, s.sp.val = k.val + 1 → Completes (exec .ret s) fun t =>
      t.sp.val = k.val ∧ t.pc = s.stack[k.val] + 2 ∧ t.stack = s.stack ∧ Frame.holds { callStack := true } s t) ∧
    (s.sp.val = 0 → exec .ret s = .fault .stackUnderflow)

/-- "executing `2nnn` then immediately `00EE` restores PC to exactly pc_before_call + 2, and stack pointer is unchanged (net
zero depth)" (R73), as two cycles of the machine; nothing else changes but the stack entry pushed, which stays (the stack
discipline is 92_eei_decisions.md D14, log 12), and the timers. -/
def Obligations.CallThenReturnRestoresPc : Prop :=
  ∀ (s : State) (nnn : BitVec 12), s.sp.val < 16 → s.executes (.call nnn) → nnn.toNat + 1 < 4096 →
    s.mem.byte nnn.toNat = 0x00 → s.mem.byte (nnn.toNat + 1) = 0xEE →
    ∃ t, RunsTo 2 s t ∧ t.pc.toNat = s.pc.toNat + 2 ∧ t.sp = s.sp ∧
      (∀ k : Fin 16, t.stack[k.val] = if k.val = s.sp.val then s.pc else s.stack[k.val]) ∧
      Frame.holds { callStack := true, delayTimer := true, soundTimer := true } s t

/-! ## 41_alu.md -/

/-- `6xkk`, `7xkk`, `8xy0`: the new value of `V[x]`, for every `x`, F included; no flag is written (R81, R82, R83). -/
def Obligations.LoadsAndImmediateAdd : Prop :=
  ∀ (s : State) (x y : Reg) (kk : Byte),
    decodeWord (formatXKK 0x6 x kk) = .ok (.ldImm x kk) ∧ decodeWord (formatXKK 0x7 x kk) = .ok (.addImm x kk) ∧
    decodeWord (formatXYN 0x8 x y 0) = .ok (.ldReg x y) ∧
    (Completes (exec (.ldImm x kk) s) fun t => t.readV x = kk ∧ t.pc = s.pc + 2 ∧ Frame.holds { regs := [x] } s t) ∧
    (Completes (exec (.addImm x kk) s) fun t =>
      (t.readV x).toNat = ((s.readV x).toNat + kk.toNat) % 256 ∧ t.pc = s.pc + 2 ∧ Frame.holds { regs := [x] } s t) ∧
    (Completes (exec (.ldReg x y) s) fun t =>
      t.readV x = s.readV y ∧ t.pc = s.pc + 2 ∧ Frame.holds { regs := [x] } s t)

/-- `8xy1`, `8xy2`, `8xy3`: `V[x]` is the bitwise OR, AND, XOR; no flag is written, so `V[F]` keeps its value unless x is F
(R84, R85, R86). -/
def Obligations.LogicOperations : Prop :=
  ∀ (s : State) (x y : Reg),
    decodeWord (formatXYN 0x8 x y 1) = .ok (.orReg x y) ∧ decodeWord (formatXYN 0x8 x y 2) = .ok (.andReg x y) ∧
    decodeWord (formatXYN 0x8 x y 3) = .ok (.xorReg x y) ∧
    (Completes (exec (.orReg x y) s) fun t =>
      (∀ b < 8, (t.readV x).getLsbD b = ((s.readV x).getLsbD b || (s.readV y).getLsbD b)) ∧ t.pc = s.pc + 2 ∧
      Frame.holds { regs := [x] } s t) ∧
    (Completes (exec (.andReg x y) s) fun t =>
      (∀ b < 8, (t.readV x).getLsbD b = ((s.readV x).getLsbD b && (s.readV y).getLsbD b)) ∧ t.pc = s.pc + 2 ∧
      Frame.holds { regs := [x] } s t) ∧
    (Completes (exec (.xorReg x y) s) fun t =>
      (∀ b < 8, (t.readV x).getLsbD b = ((s.readV x).getLsbD b ^^ (s.readV y).getLsbD b)) ∧ t.pc = s.pc + 2 ∧
      Frame.holds { regs := [x] } s t)

/-- `8xy4`: `V[F]` is 1 iff the sum exceeds 255, else 0; `V[x]` is the sum modulo 256 unless x is F, where the flag is what
remains; a y of F is the old `V[F]` (R87; for x or y F the order is 41_alu.md R80, 92_eei_decisions.md D7, log 15). -/
def Obligations.AddWithCarry : Prop :=
  ∀ (s : State) (x y : Reg), Completes (exec (.addReg x y) s) fun t =>
    (t.readV regF).toNat = (if (s.readV x).toNat + (s.readV y).toNat > 255 then 1 else 0) ∧
    (x ≠ regF → (t.readV x).toNat = ((s.readV x).toNat + (s.readV y).toNat) % 256) ∧
    t.pc = s.pc + 2 ∧ Frame.holds { regs := [x, regF] } s t

/-- `8xy5`, `8xy7`: `V[F]` is 1 iff minuend >= subtrahend, else 0; `V[x]` is the difference modulo 256 unless x is F, where the
flag is what remains (R88, R90; for x or y F the order is 41_alu.md R80, 92_eei_decisions.md D7, log 15). -/
def Obligations.SubtractWithNotBorrow : Prop :=
  ∀ (s : State) (x y : Reg),
    (Completes (exec (.subReg x y) s) fun t =>
      (t.readV regF).toNat = (if (s.readV x).toNat ≥ (s.readV y).toNat then 1 else 0) ∧
      (x ≠ regF → (t.readV x).toNat = ((s.readV x).toNat + 256 - (s.readV y).toNat) % 256) ∧
      t.pc = s.pc + 2 ∧ Frame.holds { regs := [x, regF] } s t) ∧
    (Completes (exec (.subnReg x y) s) fun t =>
      (t.readV regF).toNat = (if (s.readV y).toNat ≥ (s.readV x).toNat then 1 else 0) ∧
      (x ≠ regF → (t.readV x).toNat = ((s.readV y).toNat + 256 - (s.readV x).toNat) % 256) ∧
      t.pc = s.pc + 2 ∧ Frame.holds { regs := [x, regF] } s t)

/-- `8xy6`, `8xyE`: `V[x]` is the old `V[x]` shifted by one, zero filled; `V[F]` is the bit shifted out unless x is F, where
the shifted value is what remains (R89, R91; for x F the order is 41_alu.md R80, 92_eei_decisions.md D7, log 15). -/
def Obligations.ShiftsByOne : Prop :=
  ∀ (s : State) (x : Reg),
    (Completes (exec (.shr x) s) fun t =>
      (t.readV x).toNat = (s.readV x).toNat / 2 ∧ (x ≠ regF → (t.readV regF).toNat = (s.readV x).toNat % 2) ∧
      t.pc = s.pc + 2 ∧ Frame.holds { regs := [x, regF] } s t) ∧
    (Completes (exec (.shl x) s) fun t =>
      (t.readV x).toNat = (s.readV x).toNat * 2 % 256 ∧ (x ≠ regF → (t.readV regF).toNat = (s.readV x).toNat / 128) ∧
      t.pc = s.pc + 2 ∧ Frame.holds { regs := [x, regF] } s t)

/-! ## 42_index_and_memory.md -/

/-- `Annn`: `I = nnn` (R101); `Fx1E`: `I = I + V[x]`, 16-bit wraparound, no flag (R102). -/
def Obligations.IndexLoadAndAdd : Prop :=
  ∀ (s : State) (x : Reg) (nnn : BitVec 12),
    decodeWord (formatNNN 0xA nnn) = .ok (.ldI nnn) ∧ decodeWord (formatXKK 0xF x 0x1E) = .ok (.addI x) ∧
    (Completes (exec (.ldI nnn) s) fun t =>
      t.I.toNat = nnn.toNat ∧ t.pc = s.pc + 2 ∧ Frame.holds { index := true } s t) ∧
    (Completes (exec (.addI x) s) fun t =>
      t.I.toNat = (s.I.toNat + (s.readV x).toNat) % 65536 ∧ t.pc = s.pc + 2 ∧ Frame.holds { index := true } s t)

/-- `Fx29`: `I = V[x] * 5`, exact, `V[x]` not masked (R103; beyond digit 15 it is 92_eei_decisions.md D11, log 17). -/
def Obligations.GlyphAddress : Prop :=
  ∀ (s : State) (x : Reg), Completes (exec (.ldF x) s) fun t =>
    t.I.toNat = (s.readV x).toNat * 5 ∧ t.pc = s.pc + 2 ∧ Frame.holds { index := true } s t

/-- `Fx33`: the decimal digits of `V[x]` at `I`, `I+1`, `I+2`, and no other byte, where `I + 2 < 4096`; else
`AddressOutOfRange(store, max(I, 4096))` (R104; the fault is 92_eei_decisions.md D2). -/
def Obligations.StoreDecimalDigits : Prop :=
  ∀ (s : State) (x : Reg), s.mem.wf →
    (s.I.toNat + 2 < 4096 → Completes (exec (.ldB x) s) fun t =>
      (t.mem.byte s.I.toNat).toNat = (s.readV x).toNat / 100 ∧
      (t.mem.byte (s.I.toNat + 1)).toNat = (s.readV x).toNat / 10 % 10 ∧
      (t.mem.byte (s.I.toNat + 2)).toNat = (s.readV x).toNat % 10 ∧
      t.pc = s.pc + 2 ∧ Frame.holds { storeBase := s.I.toNat, storeLength := 3 } s t) ∧
    (4096 ≤ s.I.toNat + 2 → exec (.ldB x) s = .fault (.addressOutOfRange .store (max s.I.toNat 4096)))

/-- `Fx55`: `mem[I + i] <- V[i]` for i from 0 to x, and no other byte, where `I + x < 4096`; else
`AddressOutOfRange(store, max(I, 4096))` (R105; the fault is 92_eei_decisions.md D2). `I` is unchanged. -/
def Obligations.StoreRegisterGroup : Prop :=
  ∀ (s : State) (x : Reg), s.mem.wf →
    (s.I.toNat + x.val < 4096 → Completes (exec (.storeRegs x) s) fun t =>
      (∀ i : Reg, i ≤ x → t.mem.byte (s.I.toNat + i.val) = s.readV i) ∧
      t.pc = s.pc + 2 ∧ Frame.holds { storeBase := s.I.toNat, storeLength := x.val + 1 } s t) ∧
    (4096 ≤ s.I.toNat + x.val → exec (.storeRegs x) s = .fault (.addressOutOfRange .store (max s.I.toNat 4096)))

/-- `Fx65`: `V[i] <- mem[I + i]` for i from 0 to x, registers above unchanged, where `I + x < 4096`; else
`AddressOutOfRange(load, max(I, 4096))` (R106; the fault is 92_eei_decisions.md D2). `I` and memory are unchanged. -/
def Obligations.LoadRegisterGroup : Prop :=
  ∀ (s : State) (x : Reg),
    (s.I.toNat + x.val < 4096 → Completes (exec (.loadRegs x) s) fun t =>
      (∀ i : Reg, i ≤ x → t.readV i = s.mem.byte (s.I.toNat + i.val)) ∧
      (∀ i : Reg, x < i → t.readV i = s.readV i) ∧
      t.pc = s.pc + 2 ∧ Frame.holds { regs := List.finRange 16 } s t) ∧
    (4096 ≤ s.I.toNat + x.val → exec (.loadRegs x) s = .fault (.addressOutOfRange .load (max s.I.toNat 4096)))

/-- Registers stored by `Fx55` and loaded back by `Fx65` through the same `I` are the registers stored, whatever the
registers have become in between. -/
def Obligations.StoreThenLoadRestoresRegisters : Prop :=
  ∀ (s t u v : State) (x : Reg), s.mem.wf → exec (.storeRegs x) s = .next t → u.mem = t.mem → u.I = s.I →
    exec (.loadRegs x) u = .next v → ∀ i : Reg, i ≤ x → v.readV i = s.readV i

/-! ## 43_display.md -/

/-- `00E0`: every pixel off, `V[F]` and everything else but `pc` unchanged (R110). -/
def Obligations.ClearScreen : Prop :=
  decodeWord 0x00E0 = .ok .cls ∧
  ∀ s : State, Completes (exec .cls s) fun t =>
    (∀ d < 2048, pixel t.fb d = false) ∧ t.pc = s.pc + 2 ∧ Frame.holds { display := true } s t

/-- `Dxyn` as its final state (R113): each pixel is inverted iff a set sprite bit lands on it, `V[F]` is 1 iff one landed on a
pixel that was on, else 0, the position being that of the registers before the instruction, x or y F included (R111, R112;
92_eei_decisions.md D7, D8, D9, log 11, log 15, log 16). `n = 0` draws nothing and cannot fault. -/
def Obligations.DrawFinalState : Prop :=
  ∀ (s : State) (x y : Reg) (n : Nat), n < 16 → (n = 0 ∨ s.I.toNat + n ≤ 4096) →
    Completes (exec (.drw x y n) s) fun t =>
      (∀ d < 2048, (Covers s x y n d → pixel t.fb d = !pixel s.fb d) ∧
        (¬Covers s x y n d → pixel t.fb d = pixel s.fb d)) ∧
      ((∃ d, Covers s x y n d ∧ pixel s.fb d = true) → t.readV regF = 1) ∧
      ((¬∃ d, Covers s x y n d ∧ pixel s.fb d = true) → t.readV regF = 0) ∧
      t.pc = s.pc + 2 ∧ Frame.holds { regs := [regF], display := true } s t

/-- `Dxyn` whose sprite reaches an address of 4096 or more faults, and nothing is drawn (R111; 92_eei_decisions.md D9). -/
def Obligations.DrawOutOfRangeFaults : Prop :=
  ∀ (s : State) (x y : Reg) (n : Nat), 1 ≤ n → 4096 < s.I.toNat + n →
    exec (.drw x y n) s = .fault (.addressOutOfRange .load (max s.I.toNat 4096))

/-- "drawing the same sprite at the same position twice in succession returns the framebuffer region to its pre-draw state"
(R114), for x and y other than F; the second draw's `V[F]` is 1 iff the first turned a pixel on. Which pixels a sprite covers is
90_conflicts.md C2 and 92_eei_decisions.md D8, log 16. -/
def Obligations.DrawTwiceRestores : Prop :=
  ∀ (s t u : State) (x y : Reg) (n : Nat), n < 16 → x ≠ regF → y ≠ regF →
    exec (.drw x y n) s = .next t → exec (.drw x y n) t = .next u →
    u.fb = s.fb ∧
    ((∃ d, Covers s x y n d ∧ pixel s.fb d = false) → u.readV regF = 1) ∧
    ((¬∃ d, Covers s x y n d ∧ pixel s.fb d = false) → u.readV regF = 0)

/-- The wrap in screen terms (R112; flattened by 90_conflicts.md C2, unreduced sums by 92_eei_decisions.md D8): with
`X = V[x] + c`, `Y = V[y] + r`, the pixel is at column `X mod 64` and row `(Y + X / 64) mod 32`. -/
def Obligations.DrawWrapsByFlattenedIndex : Prop :=
  ∀ (xs ys : Byte) (r c : Nat),
    pixelIndex xs ys r c % 64 = (xs.toNat + c) % 64 ∧
    pixelIndex xs ys r c / 64 = (ys.toNat + r + (xs.toNat + c) / 64) % 32

/-! ## 44_random_keys_timers.md -/

/-- `Cxkk`: `V[x]` is the random byte AND kk, so every bit where kk has a 0 is 0; the byte is the free value of this draw, and
the next draw is another (R121; 92_eei_decisions.md D17, log 1). -/
def Obligations.RandomMasked : Prop :=
  ∀ (s : State) (x : Reg) (kk : Byte), Completes (exec (.rnd x kk) s) fun t =>
    t.readV x = Config.rand8 s.draws &&& kk ∧ (∀ b < 8, kk.getLsbD b = false → (t.readV x).getLsbD b = false) ∧
    t.draws = s.draws + 1 ∧ t.pc = s.pc + 2 ∧ Frame.holds { regs := [x], randomDraws := true } s t

/-- `Ex9E` skips iff the key numbered `V[x]` is down, `ExA1` iff it is up; from 16 on, `KeyIndexOutOfRange(V[x])` (R122, R123;
the fault is 92_eei_decisions.md D5, log 13). Nothing but `pc` is written. -/
def Obligations.KeySkips : Prop :=
  ∀ (s : State) (x : Reg),
    (∀ k : Fin 16, (s.readV x).toNat = k.val →
      (Completes (exec (.skp x) s) fun t =>
        t.pc = (if s.key[k.val] = true then s.pc + 4 else s.pc + 2) ∧ Frame.holds {} s t) ∧
      (Completes (exec (.sknp x) s) fun t =>
        t.pc = (if s.key[k.val] = false then s.pc + 4 else s.pc + 2) ∧ Frame.holds {} s t)) ∧
    (16 ≤ (s.readV x).toNat →
      exec (.skp x) s = .fault (.keyIndexOutOfRange (s.readV x)) ∧
      exec (.sknp x) s = .fault (.keyIndexOutOfRange (s.readV x)))

/-- `Fx0A`: with no key down nothing is written and `pc` stays; else `V[x]` is the lowest-numbered key that is down (R124;
that it is the lowest is 92_eei_decisions.md D6, log 14). -/
def Obligations.WaitForKey : Prop :=
  ∀ (s : State) (x : Reg),
    ((∀ k : Fin 16, s.key[k.val] = false) → exec (.ldVK x) s = .next s) ∧
    (∀ k : Fin 16, s.key[k.val] = true → (∀ j : Fin 16, j < k → s.key[j.val] = false) →
      Completes (exec (.ldVK x) s) fun t =>
        (t.readV x).toNat = k.val ∧ t.pc = s.pc + 2 ∧ Frame.holds { regs := [x] } s t)

/-- `Fx07`, `Fx15`, `Fx18` (R125, R126, R127), with what the tick of the same cycle then leaves: the copy in `V[x]` is not
ticked, the timer set is. The last clause is "No instruction reads `ST`" (R127): with another value there, everything else
comes out the same. -/
def Obligations.TimerInstructions : Prop :=
  ∀ (s : State) (x : Reg),
    decodeWord (formatXKK 0xF x 0x07) = .ok (.ldVDT x) ∧ decodeWord (formatXKK 0xF x 0x15) = .ok (.ldDTV x) ∧
    decodeWord (formatXKK 0xF x 0x18) = .ok (.ldSTV x) ∧
    (Completes (exec (.ldVDT x) s) fun t =>
      t.readV x = s.DT ∧ t.tick.readV x = s.DT ∧ t.tick.DT.toNat = s.DT.toNat - 1 ∧ t.pc = s.pc + 2 ∧
      Frame.holds { regs := [x] } s t) ∧
    (Completes (exec (.ldDTV x) s) fun t =>
      t.DT = s.readV x ∧ t.tick.DT.toNat = (s.readV x).toNat - 1 ∧ t.pc = s.pc + 2 ∧
      Frame.holds { delayTimer := true } s t) ∧
    (Completes (exec (.ldSTV x) s) fun t =>
      t.ST = s.readV x ∧ t.tick.ST.toNat = (s.readV x).toNat - 1 ∧ t.pc = s.pc + 2 ∧
      Frame.holds { soundTimer := true } s t) ∧
    (∀ i t v, exec i s = .next t → ∃ u, exec i { s with ST := v } = .next u ∧ { u with ST := t.ST } = t)

/-! ## 10_state.md -/

/-- The invariant of the machine holds at reset, whatever `FONT` is: memory in the model's own canonical form,
`pc <= 0x10FE`, the stacked return addresses at most 4094. -/
def Obligations.InvariantAtReset : Prop := State.reset.inv ∧ ∀ F : Config.Font, (State.resetWith F).inv

/-- Every cycle keeps the invariant: memory in the model's own canonical form, `pc <= 0x10FE` (R15), every stacked return
address at most 4094 (which entries are stacked is 92_eei_decisions.md D14, log 12). -/
def Obligations.StepKeepsInvariant : Prop := ∀ s t : State, s.inv → step s = .next t → t.inv

/-- Every operation of the host keeps the invariant, from every state that meets it: cycles, faulting or not, loads, key events
and resets: "After reset, after `load_program` and after every non-faulting cycle, `pc <= 0x10FE`" (R15). So it holds in every
state that operations in any order bring about from reset (D14, log 12, as for a cycle; that the operations are atomic, and that
reset can be one of them, is 92_eei_decisions.md D18, D24, log 10). -/
def Obligations.ReachableStatesMeetInvariant : Prop :=
  (∀ (F : Config.Font) (op : HostOp) (s : State), s.inv → (perform F op s).1.inv) ∧ ∀ s : State, s.reachable → s.inv

/-- "`pc` never wraps around at 16 bits" (R15): in a state that meets the invariant, a cycle that completes leaves `pc` at one
of the values R14 lists, as natural numbers. Which entry `00EE` takes is 92_eei_decisions.md D14, log 12. -/
def Obligations.PcNeverWraps : Prop :=
  ∀ s t : State, s.inv → step s = .next t →
    t.pc.toNat = s.pc.toNat + 2 ∨ t.pc.toNat = s.pc.toNat + 4 ∨
    (∃ nnn, (s.executes (.jp nnn) ∨ s.executes (.call nnn)) ∧ t.pc.toNat = nnn.toNat) ∨
    (∃ nnn, s.executes (.jpV0 nnn) ∧ t.pc.toNat = nnn.toNat + (s.readV 0).toNat) ∨
    (s.executes .ret ∧ ∃ k : Fin 16, s.sp.val = k.val + 1 ∧ t.pc.toNat = (s.stack[k.val]).toNat + 2) ∨
    (∃ x, s.executes (.ldVK x) ∧ (∀ k : Fin 16, s.key[k.val] = false) ∧ t.pc = s.pc)

/-- "stack pointer is only incremented by a subroutine-call instruction and decremented by a return instruction" (R18), and
the stack is written only by the call (R17). That `sp` counts the entries in use and that a popped entry keeps its value is
92_eei_decisions.md D14, log 12. -/
def Obligations.StackPointerOnlyByCallAndReturn : Prop :=
  ∀ (i : Instr) (s t : State), exec i s = .next t →
    (∃ nnn, i = .call nnn ∧ t.sp.val = s.sp.val + 1) ∨
    (i = .ret ∧ t.sp.val + 1 = s.sp.val ∧ t.stack = s.stack) ∨ (t.sp = s.sp ∧ t.stack = s.stack)

/-- Who writes what, over all instructions: `I` only `Annn`, `Fx1E`, `Fx29` (R13); `mem` only `Fx33`, `Fx55`; `fb` only `00E0`,
`Dxyn` (R22); in its execute phase `DT` only `Fx15` and `ST` only `Fx18` (R23); `key` none (R24). -/
def Obligations.WritersOfEachElement : Prop :=
  ∀ (i : Instr) (s t : State), exec i s = .next t →
    (t.I ≠ s.I → (∃ nnn, i = .ldI nnn) ∨ ∃ x, i = .addI x ∨ i = .ldF x) ∧
    (t.mem ≠ s.mem → ∃ x, i = .ldB x ∨ i = .storeRegs x) ∧
    (t.fb ≠ s.fb → i = .cls ∨ ∃ x y n, i = .drw x y n) ∧
    (t.DT ≠ s.DT → ∃ x, i = .ldDTV x) ∧ (t.ST ≠ s.ST → ∃ x, i = .ldSTV x) ∧ t.key = s.key

/-- Which instructions write which general register, over all instructions: only those with it as their `x` or in their group,
and for `V[F]` the six that write it as a flag; in particular `7xkk`, `8xy1`, `8xy2`, `8xy3`, `Fx1E` do not (R11, R12). -/
def Obligations.WritersOfEachRegister : Prop :=
  ∀ (i : Instr) (s t : State) (r : Reg), exec i s = .next t → t.readV r ≠ s.readV r → MayWriteV r i

/-- After reset every element of state has the value of the table of R27, for every value of the parameter `FONT`, and whatever
it was before (R131; that a machine which has run can be reset, its keys too, is 92_eei_decisions.md D24, log 10).
`State.reset` is the state after reset with the default `FONT` (log 2). -/
def Obligations.ResetValues : Prop :=
  State.resetWith defaultFont = State.reset ∧
  ∀ (F : Config.Font) (s : State), let t := (perform F .reset s).1
    (∀ r, t.readV r = 0) ∧ t.I = 0 ∧ t.pc = 0x200 ∧ (∀ k : Fin 16, t.stack[k.val] = 0) ∧ t.sp = 0 ∧
    (∀ a : Fin 80, t.mem.byte a.val = F[a.val]) ∧ (∀ a, 80 ≤ a → a < 4096 → t.mem.byte a = 0) ∧
    (∀ d < 2048, pixel t.fb d = false) ∧ t.DT = 0 ∧ t.ST = 0 ∧ (∀ k : Fin 16, t.key[k.val] = false)

/-! ## 60_exceptions.md -/

/-- The table of R140: each instruction faults exactly under its condition there, with the fault and the value recorded
there, and an instruction the table does not name never faults; and no instruction has two (R144). The data faults, the
stack policy, the key fault and what is recorded are 92_eei_decisions.md D2, D3, D5, D9, D16. -/
def Obligations.FaultsExactlyAsTabulated : Prop :=
  ∀ (i : Instr) (s : State),
    (∀ f, tableFault i s = some f → exec i s = .fault f) ∧ (tableFault i s = none → ∃ t, exec i s = .next t)

/-- A faulting cycle changes nothing and reports its fault to the host (R143; 92_eei_decisions.md D4), and another raises the
same fault again (R145; D20), whatever key events come in between. -/
def Obligations.FaultLeavesStateAndRepeats : Prop :=
  ∀ (F : Config.Font) (s : State) (f : Fault) (k : Nat), step s = .fault f →
    perform F .step s = (s, .fault f) ∧ (perform F .step (s.keyDown k)).2 = .fault f ∧
    (perform F .step (s.keyUp k)).2 = .fault f

/-- "every fault condition is a function of `pc`, `mem`, `I`, `sp` and `V` alone (not of `key`, `rand8` or the timers)"
(R145), and not of the stack's contents or the framebuffer either. -/
def Obligations.FaultConditionsDependOnFiveElements : Prop :=
  ∀ (s t : State) (f : Fault), t.pc = s.pc → t.mem = s.mem → t.I = s.I → t.sp = s.sp → t.V = s.V →
    (step s = .fault f ↔ step t = .fault f)

/-- The decay law: "if `DT = d` at the start of a run of `N` non-faulting cycles none of which executes `Fx15`, then
`DT = max(d - N, 0)` after them, and likewise for `ST` with `Fx18`" (R151). That every one of these cycles ticks, also one of
an unmatched word or of a waiting `Fx0A`, is 92_eei_decisions.md D21, log 4. -/
def Obligations.TimersDecay : Prop :=
  ∀ (n : Nat) (s t : State),
    (RunsAvoiding (fun i => ∃ x, i = .ldDTV x) n s t → t.DT.toNat = s.DT.toNat - n) ∧
    (RunsAvoiding (fun i => ∃ x, i = .ldSTV x) n s t → t.ST.toNat = s.ST.toNat - n)

/-! ## 45_host_operations.md: the host's operations -/

/-- `load_program` (R133): no byte or more than 3584 is a load error and changes nothing; else the image is at 0x200 upward,
`pc` is 0x200, and every other element and byte is as before. -/
def Obligations.LoadProgram : Prop :=
  ∀ (F : Config.Font) (s : State) (bytes : List Byte), s.mem.wf →
    (bytes.length = 0 → perform F (.loadProgram bytes) s = (s, .loadError .emptyProgram)) ∧
    (3584 < bytes.length → perform F (.loadProgram bytes) s = (s, .loadError .programTooLarge)) ∧
    (0 < bytes.length → bytes.length ≤ 3584 → ∃ t, perform F (.loadProgram bytes) s = (t, .ok) ∧ t.pc = 0x200 ∧
      (∀ j (h : j < bytes.length), t.mem.byte (0x200 + j) = bytes[j]) ∧
      Frame.holds { storeBase := 0x200, storeLength := bytes.length } s t)

/-- `key_down(k)` and `key_up(k)` set the level of key `k` and change nothing else; 16 or more is no key and no error (R135,
R136). -/
def Obligations.KeyEvents : Prop :=
  ∀ (F : Config.Font) (s : State) (k : Nat),
    (∀ j : Fin 16, (perform F (.keyDown k) s).1.key[j.val] = if j.val = k then true else s.key[j.val]) ∧
    (∀ j : Fin 16, (perform F (.keyUp k) s).1.key[j.val] = if j.val = k then false else s.key[j.val]) ∧
    (∀ t, t = (perform F (.keyDown k) s).1 ∨ t = (perform F (.keyUp k) s).1 → { t with key := s.key } = s) ∧
    (16 ≤ k → perform F (.keyDown k) s = (s, .none) ∧ perform F (.keyUp k) s = (s, .none))

/-- `display()` changes nothing and returns all 2048 pixels, "element `y*64 + x` is the pixel at column `x`, row `y`"
(R137). That this pixel is bit `x` of the row `y` of the state is the model's own layout and no word of the spec (log 8). -/
def Obligations.DisplayReturnsPixels : Prop :=
  ∀ (F : Config.Font) (s : State), ∃ p : List Bool, perform F .display s = (s, .pixels p) ∧ p.length = 2048 ∧
    ∀ (x : Fin 64) (y : Fin 32), p[y.val * 64 + x.val]? = some ((s.fb[y.val]).getLsbD x.val)

/-! ## 70_reset_and_hazards.md -/

/-- A jump to itself: "each further cycle changes nothing except that nonzero timers count down, so once both timers are 0 the
state is a fixed point of `step`" (R171; the convention is 92_eei_decisions.md D22). -/
def Obligations.JumpToSelfIsFixedPoint : Prop :=
  ∀ s : State, s.spinsInPlace → step s = .next s.tick ∧ (s.DT = 0 → s.ST = 0 → step s = .next s)

/-- The timer off-by-one (R168): after the cycle that executes `Fx15` with `V[x] = v`, a state reached by `k - 1` more cycles
none of which executes `Fx15` has `DT = max(v - k, 0)`, which is what an `Fx07` there reads. That all the cycles between tick,
also one of an unmatched word or of a waiting `Fx0A`, is 92_eei_decisions.md D21, log 4. -/
def Obligations.DelayTimerOffByOne : Prop :=
  ∀ (s u t : State) (x y : Reg) (k : Nat), 1 ≤ k → s.executes (.ldDTV x) → CompletesTo s u →
    RunsAvoiding (fun i => ∃ z, i = .ldDTV z) (k - 1) u t → t.executes (.ldVDT y) →
    ∃ v, CompletesTo t v ∧ (v.readV y).toNat = (s.readV x).toNat - k
end

