-- ==== Sys2Proof/Laws/Decode.lean ====
section
/-! SUPPORT. The fields of a word (30_encoding.md R51) as arithmetic, and the fields of each encoded format. -/

namespace Sys2Proof

theorem fieldN0_toNat (w : Word) : (fieldN0 w).toNat = w.toNat / 4096 := by
  have := w.isLt
  simp only [fieldN0, BitVec.extractLsb'_toNat, Nat.shiftRight_eq_div_pow]
  omega

theorem fieldX_val (w : Word) : (fieldX w).val = w.toNat / 256 % 16 := by
  show (w.extractLsb' 8 4).toNat = _
  simp only [BitVec.extractLsb'_toNat, Nat.shiftRight_eq_div_pow]

theorem fieldY_val (w : Word) : (fieldY w).val = w.toNat / 16 % 16 := by
  show (w.extractLsb' 4 4).toNat = _
  simp only [BitVec.extractLsb'_toNat, Nat.shiftRight_eq_div_pow]

theorem fieldN_eq (w : Word) : fieldN w = w.toNat % 16 := by
  simp only [fieldN, BitVec.extractLsb'_toNat, Nat.shiftRight_eq_div_pow]
  omega

theorem fieldKK_toNat (w : Word) : (fieldKK w).toNat = w.toNat % 256 := by
  simp only [fieldKK, BitVec.extractLsb'_toNat, Nat.shiftRight_eq_div_pow]
  omega

theorem fieldNNN_toNat (w : Word) : (fieldNNN w).toNat = w.toNat % 4096 := by
  simp only [fieldNNN, BitVec.extractLsb'_toNat, Nat.shiftRight_eq_div_pow]
  omega

/-- The number a concatenation stands for. -/
theorem append_toNat {n m : Nat} (a : BitVec n) (b : BitVec m) : (a ++ b).toNat = a.toNat * 2 ^ m + b.toNat := by
  rw [BitVec.toNat_append, ← Nat.shiftLeft_add_eq_or_of_lt b.isLt, Nat.shiftLeft_eq]

theorem formatNNN_toNat (op : BitVec 4) (nnn : BitVec 12) :
    (formatNNN op nnn).toNat = op.toNat * 4096 + nnn.toNat :=
  append_toNat op nnn

theorem formatXKK_toNat (op : BitVec 4) (x : Reg) (kk : Byte) :
    (formatXKK op x kk).toNat = op.toNat * 4096 + x.val * 256 + kk.toNat := by
  show (op ++ BitVec.ofNat 4 x.val ++ kk).toNat = _
  rw [append_toNat, append_toNat, BitVec.toNat_ofNat]
  omega

theorem formatXYN_toNat (op : BitVec 4) (x y : Reg) (n : BitVec 4) :
    (formatXYN op x y n).toNat = op.toNat * 4096 + x.val * 256 + y.val * 16 + n.toNat := by
  show (op ++ BitVec.ofNat 4 x.val ++ BitVec.ofNat 4 y.val ++ n).toNat = _
  rw [append_toNat, append_toNat, append_toNat, BitVec.toNat_ofNat, BitVec.toNat_ofNat]
  omega

/-! ## The fields of the format `op nnn` -/

@[simp] theorem fieldN0_formatNNN (op : BitVec 4) (nnn : BitVec 12) : fieldN0 (formatNNN op nnn) = op := by
  have h := nnn.isLt
  apply BitVec.eq_of_toNat_eq
  rw [fieldN0_toNat, formatNNN_toNat]
  omega

@[simp] theorem fieldNNN_formatNNN (op : BitVec 4) (nnn : BitVec 12) : fieldNNN (formatNNN op nnn) = nnn := by
  have h := nnn.isLt
  apply BitVec.eq_of_toNat_eq
  rw [fieldNNN_toNat, formatNNN_toNat]
  omega

/-! ## The fields of the format `op x kk` -/

@[simp] theorem fieldN0_formatXKK (op : BitVec 4) (x : Reg) (kk : Byte) : fieldN0 (formatXKK op x kk) = op := by
  have h := kk.isLt
  have hx := x.isLt
  apply BitVec.eq_of_toNat_eq
  rw [fieldN0_toNat, formatXKK_toNat]
  omega

@[simp] theorem fieldX_formatXKK (op : BitVec 4) (x : Reg) (kk : Byte) : fieldX (formatXKK op x kk) = x := by
  have h := kk.isLt
  have hx := x.isLt
  apply Fin.ext
  rw [fieldX_val, formatXKK_toNat]
  omega

@[simp] theorem fieldKK_formatXKK (op : BitVec 4) (x : Reg) (kk : Byte) : fieldKK (formatXKK op x kk) = kk := by
  have h := kk.isLt
  apply BitVec.eq_of_toNat_eq
  rw [fieldKK_toNat, formatXKK_toNat]
  omega

/-! ## The fields of the format `op x y n` -/

@[simp] theorem fieldN0_formatXYN (op : BitVec 4) (x y : Reg) (n : BitVec 4) : fieldN0 (formatXYN op x y n) = op := by
  have h := n.isLt
  have hx := x.isLt
  have hy := y.isLt
  apply BitVec.eq_of_toNat_eq
  rw [fieldN0_toNat, formatXYN_toNat]
  omega

@[simp] theorem fieldX_formatXYN (op : BitVec 4) (x y : Reg) (n : BitVec 4) : fieldX (formatXYN op x y n) = x := by
  have h := n.isLt
  have hx := x.isLt
  have hy := y.isLt
  apply Fin.ext
  rw [fieldX_val, formatXYN_toNat]
  omega

@[simp] theorem fieldY_formatXYN (op : BitVec 4) (x y : Reg) (n : BitVec 4) : fieldY (formatXYN op x y n) = y := by
  have h := n.isLt
  have hx := x.isLt
  have hy := y.isLt
  apply Fin.ext
  rw [fieldY_val, formatXYN_toNat]
  omega

@[simp] theorem fieldN_formatXYN (op : BitVec 4) (x y : Reg) (n : BitVec 4) : fieldN (formatXYN op x y n) = n.toNat := by
  have h := n.isLt
  rw [fieldN_eq, formatXYN_toNat]
  omega

/-- The bytes of a word, put together again high byte first, are the word (20_memory.md R32). -/
theorem wordOfBytes_bytesOfWord (w : Word) : wordOfBytes (w.extractLsb' 8 8) (w.extractLsb' 0 8) = w := by
  have h := w.isLt
  apply BitVec.eq_of_toNat_eq
  show (w.extractLsb' 8 8 ++ w.extractLsb' 0 8).toNat = _
  rw [append_toNat, BitVec.extractLsb'_toNat, BitVec.extractLsb'_toNat, Nat.shiftRight_eq_div_pow,
    Nat.shiftRight_eq_div_pow]
  omega

/-- The word of two bytes, by its bytes. -/
theorem bytesOfWord_wordOfBytes (hi lo : Byte) : bytesOfWord (wordOfBytes hi lo) = [hi, lo] := by
  have hh := hi.isLt
  have hl := lo.isLt
  have e : (wordOfBytes hi lo).toNat = hi.toNat * 256 + lo.toNat := append_toNat hi lo
  simp only [bytesOfWord, List.cons.injEq, and_true]
  constructor <;> apply BitVec.eq_of_toNat_eq <;>
    simp only [BitVec.extractLsb'_toNat, Nat.shiftRight_eq_div_pow, e] <;> omega

end Sys2Proof
end

