-- ==== Sys2Proof/Laws/Memory.lean ====
section
/-! SUPPORT. The laws of memory: a read after a write gives the value written and a write leaves every other address alone;
every write keeps the canonical form; in the canonical form equal memories are equal lists. -/

namespace Sys2Proof.Machine

@[simp] theorem Memory.byte_nil (a : Nat) : Memory.byte [] a = unlisted a := rfl

theorem Memory.byte_cons_self (m : Memory) (a : Nat) (w : Byte) : Memory.byte ((a, w) :: m) a = w := by
  simp [Memory.byte]

/-- An address that the list does not hold reads as its reset contents. -/
theorem Memory.byte_of_not_mem {m : Memory} {a : Nat} (h : ∀ p ∈ m, p.1 ≠ a) : m.byte a = unlisted a := by
  induction m with
  | nil => rfl
  | cons p m ih =>
    have hp : a ≠ p.1 := fun e => h p (by simp) e.symm
    simp only [Memory.byte, hp, if_false]
    exact ih fun q hq => h q (by simp [hq])

/-- Where all listed addresses are above `a`, putting a cell of `a` in front is a write. -/
theorem Memory.byte_cons {m : Memory} {a : Nat} (h : ∀ p ∈ m, a < p.1) (v : Byte) (b : Nat) :
    Memory.byte (Memory.cons a v m) b = if b = a then v else m.byte b := by
  unfold Memory.cons
  split
  · next hv =>
    split
    · next e =>
      subst e
      rw [Memory.byte_of_not_mem fun p hp => by have := h p hp; omega, hv]
    · rfl
  · simp [Memory.byte]

theorem Memory.wf_tail {p : Host.Cell} {m : Memory} (h : Memory.wf (p :: m)) : Memory.wf m :=
  ⟨(List.pairwise_cons.1 h.1).2, fun q hq => h.2 q (by simp [hq])⟩

/-- In the canonical form every address after the first is above it. -/
theorem Memory.lt_of_wf {p : Host.Cell} {m : Memory} (h : Memory.wf (p :: m)) : ∀ q ∈ m, p.1 < q.1 :=
  (List.pairwise_cons.1 h.1).1

/-- Read after write, at the same address and at any other. -/
theorem Memory.byte_put {m : Memory} (hm : m.Pairwise fun p q => p.1 < q.1) (a : Nat) (v : Byte) (b : Nat) :
    (m.put a v).byte b = if b = a then v else m.byte b := by
  induction m with
  | nil => exact Memory.byte_cons (by simp) v b
  | cons p m ih =>
    obtain ⟨c, w⟩ := p
    obtain ⟨hlt, hm'⟩ := List.pairwise_cons.1 hm
    simp only [Memory.put]
    split
    · next hac =>
      refine Memory.byte_cons ?_ v b
      intro q hq
      rcases List.mem_cons.1 hq with rfl | hq
      · exact hac
      · exact lt_trans hac (hlt q hq)
    · split
      · next e =>
        subst e
        rw [Memory.byte_cons hlt]
        by_cases hb : b = a <;> simp [Memory.byte, hb]
      · next hac hne =>
        simp only [Memory.byte, ih hm']
        by_cases hb : b = c
        · subst hb; simp [Ne.symm hne]
        · simp [hb]

/-- What cells a write leaves in the list: old ones, and perhaps the one written. -/
theorem Memory.mem_put {m : Memory} {a : Nat} {v : Byte} {p : Host.Cell} (h : p ∈ m.put a v) :
    p ∈ m ∨ (p = (a, v) ∧ v ≠ unlisted a) := by
  induction m with
  | nil =>
    simp only [Memory.put, Memory.cons] at h
    split at h <;> simp_all
  | cons q m ih =>
    obtain ⟨c, w⟩ := q
    simp only [Memory.put, Memory.cons] at h
    split at h
    · split at h
      · exact .inl h
      · next hv => exact (List.mem_cons.1 h).elim (fun e => .inr ⟨e, hv⟩) .inl
    · split at h
      · split at h
        · exact .inl (List.mem_cons_of_mem _ h)
        · next hv => exact (List.mem_cons.1 h).elim (fun e => .inr ⟨e, hv⟩) fun hp => .inl (List.mem_cons_of_mem _ hp)
      · rcases List.mem_cons.1 h with rfl | h
        · simp
        · exact (ih h).imp_left (List.mem_cons_of_mem _)

/-- A write keeps the addresses strictly rising. -/
theorem Memory.pairwise_put {m : Memory} (hm : m.Pairwise fun p q => p.1 < q.1) (a : Nat) (v : Byte) :
    (m.put a v).Pairwise fun p q => p.1 < q.1 := by
  have front : ∀ {m : Memory}, m.Pairwise (fun p q => p.1 < q.1) → (∀ p ∈ m, a < p.1) →
      (Memory.cons a v m).Pairwise fun p q => p.1 < q.1 := by
    intro m hm h
    unfold Memory.cons
    split
    · exact hm
    · exact List.pairwise_cons.2 ⟨h, hm⟩
  induction m with
  | nil => exact front List.Pairwise.nil (by simp)
  | cons q m ih =>
    obtain ⟨c, w⟩ := q
    obtain ⟨hlt, hm'⟩ := List.pairwise_cons.1 hm
    simp only [Memory.put]
    split
    · next hac =>
      refine front hm fun p hp => ?_
      rcases List.mem_cons.1 hp with rfl | hp
      · exact hac
      · exact lt_trans hac (hlt p hp)
    · split
      · next e => subst e; exact front hm' hlt
      · next hac hne =>
        refine List.pairwise_cons.2 ⟨fun p hp => ?_, ih hm'⟩
        rcases Memory.mem_put hp with hp | ⟨rfl, _⟩
        · exact hlt p hp
        · show c < a
          omega

/-- A write below 4096 keeps the canonical form. -/
theorem Memory.wf_put {m : Memory} (hm : m.wf) {a : Nat} (ha : a < Config.memSize) (v : Byte) : (m.put a v).wf := by
  refine ⟨Memory.pairwise_put hm.1 a v, fun p hp => ?_⟩
  rcases Memory.mem_put hp with hp | ⟨rfl, hv⟩
  · exact hm.2 p hp
  · exact ⟨ha, hv⟩

theorem Memory.pairwise_putBytes {m : Memory} (hm : m.Pairwise fun p q => p.1 < q.1) (a : Nat) (v : List Byte) :
    (m.putBytes a v).Pairwise fun p q => p.1 < q.1 := by
  induction v generalizing m a with
  | nil => exact hm
  | cons b v ih => exact ih (Memory.pairwise_put hm a b) (a + 1)

/-- A write of a list of bytes below 4096 keeps the canonical form. -/
theorem Memory.wf_putBytes {m : Memory} (hm : m.wf) {a : Nat} {v : List Byte} (h : a + v.length ≤ Config.memSize) :
    (m.putBytes a v).wf := by
  induction v generalizing m a with
  | nil => exact hm
  | cons b v ih =>
    simp only [List.length_cons] at h
    exact ih (Memory.wf_put hm (by omega) b) (by omega)

/-- A list of bytes written at `a` reads back, and every address outside it reads as before. -/
theorem Memory.byte_putBytes {m : Memory} (hm : m.Pairwise fun p q => p.1 < q.1) (a : Nat) (v : List Byte) (b : Nat) :
    (m.putBytes a v).byte b = if a ≤ b ∧ b < a + v.length then v.getD (b - a) 0 else m.byte b := by
  induction v generalizing m a with
  | nil =>
    have : ¬(a ≤ b ∧ b < a) := by omega
    simp [Memory.putBytes, this]
  | cons w v ih =>
    simp only [Memory.putBytes, ih (Memory.pairwise_put hm a w), Memory.byte_put hm, List.length_cons]
    by_cases hb : b = a
    · subst hb
      simp
    · by_cases h : a + 1 ≤ b ∧ b < a + 1 + v.length
      · have h2 : a ≤ b ∧ b < a + (v.length + 1) := by omega
        have e : b - a = (b - (a + 1)) + 1 := by omega
        rw [if_pos h, if_pos h2, e, List.getD_cons_succ]
      · have h2 : ¬(a ≤ b ∧ b < a + (v.length + 1)) := by omega
        rw [if_neg h, if_neg h2, if_neg hb]

@[simp] theorem Memory.length_bytes (m : Memory) (a n : Nat) : (m.bytes a n).length = n := by
  simp [Memory.bytes]

/-- The `j`-th byte of a read is the byte at `a + j`. -/
theorem Memory.getElem?_bytes (m : Memory) (a n j : Nat) :
    (m.bytes a n)[j]? = if j < n then some (m.byte (a + j)) else none := by
  by_cases h : j < n <;> simp [Memory.bytes, h]

theorem Memory.getD_bytes (m : Memory) (a n j : Nat) (d : Byte) :
    (m.bytes a n).getD j d = if j < n then m.byte (a + j) else d := by
  rw [List.getD_eq_getElem?_getD, Memory.getElem?_bytes]
  split <;> rfl

/-- A listed cell is what its address reads as. -/
theorem Memory.byte_of_mem {m : Memory} (hm : m.wf) {p : Host.Cell} (hp : p ∈ m) : m.byte p.1 = p.2 := by
  induction m with
  | nil => simp at hp
  | cons q m ih =>
    rcases List.mem_cons.1 hp with rfl | hp
    · exact Memory.byte_cons_self _ _ _
    · have := Memory.lt_of_wf hm p hp
      simp only [Memory.byte, show p.1 ≠ q.1 by omega, if_false]
      exact ih (Memory.wf_tail hm) hp

/-! ## Reset with a font -/

@[simp] theorem State.resetWith_V (F : Config.Font) : (State.resetWith F).V = Vector.replicate 16 0 := rfl
@[simp] theorem State.resetWith_I (F : Config.Font) : (State.resetWith F).I = 0 := rfl
@[simp] theorem State.resetWith_pc (F : Config.Font) : (State.resetWith F).pc = 0x200 := rfl
@[simp] theorem State.resetWith_stack (F : Config.Font) : (State.resetWith F).stack = Vector.replicate 16 0 := rfl
@[simp] theorem State.resetWith_sp (F : Config.Font) : (State.resetWith F).sp = 0 := rfl
@[simp] theorem State.resetWith_fb (F : Config.Font) : (State.resetWith F).fb = Vector.replicate 32 0 := rfl
@[simp] theorem State.resetWith_DT (F : Config.Font) : (State.resetWith F).DT = 0 := rfl
@[simp] theorem State.resetWith_ST (F : Config.Font) : (State.resetWith F).ST = 0 := rfl
@[simp] theorem State.resetWith_key (F : Config.Font) : (State.resetWith F).key = Vector.replicate 16 false := rfl
@[simp] theorem State.resetWith_draws (F : Config.Font) : (State.resetWith F).draws = 0 := rfl

theorem Memory.wf_nil : Memory.wf [] := ⟨List.Pairwise.nil, by simp⟩

/-- Reset leaves memory in its canonical form, whatever the font. -/
theorem State.wf_resetWith (F : Config.Font) : (State.resetWith F).mem.wf :=
  Memory.wf_putBytes Memory.wf_nil (by simp)

/-- The memory after reset: the font below 80, and zero above it. -/
theorem State.byte_resetWith (F : Config.Font) (a : Nat) : (State.resetWith F).mem.byte a = F.toList.getD a 0 := by
  refine (Memory.byte_putBytes Memory.wf_nil.1 0 F.toList a).trans ?_
  by_cases h : a < 80
  · simp [h]
  · rw [if_neg (by simpa using h), Memory.byte_nil, unlisted, if_neg h, List.getD_eq_default _ _ (by simpa using h)]

theorem State.resetWith_defaultFont : State.resetWith defaultFont = State.reset := by decide

end Sys2Proof.Machine
end

