-- ==== Sys2Proof/Laws/State.lean ====
section
/-! SUPPORT. One lemma per field per update of State, true by rfl, so that no later proof unfolds a record update; and what
the changed field of each update is. -/

namespace Sys2Proof.Machine

/-! ## writeV -/

@[simp] theorem State.writeV_I (s : State) (x : Reg) (v : Byte) : (s.writeV x v).I = s.I := rfl
@[simp] theorem State.writeV_pc (s : State) (x : Reg) (v : Byte) : (s.writeV x v).pc = s.pc := rfl
@[simp] theorem State.writeV_stack (s : State) (x : Reg) (v : Byte) : (s.writeV x v).stack = s.stack := rfl
@[simp] theorem State.writeV_sp (s : State) (x : Reg) (v : Byte) : (s.writeV x v).sp = s.sp := rfl
@[simp] theorem State.writeV_mem (s : State) (x : Reg) (v : Byte) : (s.writeV x v).mem = s.mem := rfl
@[simp] theorem State.writeV_fb (s : State) (x : Reg) (v : Byte) : (s.writeV x v).fb = s.fb := rfl
@[simp] theorem State.writeV_DT (s : State) (x : Reg) (v : Byte) : (s.writeV x v).DT = s.DT := rfl
@[simp] theorem State.writeV_ST (s : State) (x : Reg) (v : Byte) : (s.writeV x v).ST = s.ST := rfl
@[simp] theorem State.writeV_key (s : State) (x : Reg) (v : Byte) : (s.writeV x v).key = s.key := rfl
@[simp] theorem State.writeV_draws (s : State) (x : Reg) (v : Byte) : (s.writeV x v).draws = s.draws := rfl

/-! ## writeGroup -/

@[simp] theorem State.writeGroup_I (s : State) (m : List Byte) : (s.writeGroup m).I = s.I := rfl
@[simp] theorem State.writeGroup_pc (s : State) (m : List Byte) : (s.writeGroup m).pc = s.pc := rfl
@[simp] theorem State.writeGroup_stack (s : State) (m : List Byte) : (s.writeGroup m).stack = s.stack := rfl
@[simp] theorem State.writeGroup_sp (s : State) (m : List Byte) : (s.writeGroup m).sp = s.sp := rfl
@[simp] theorem State.writeGroup_mem (s : State) (m : List Byte) : (s.writeGroup m).mem = s.mem := rfl
@[simp] theorem State.writeGroup_fb (s : State) (m : List Byte) : (s.writeGroup m).fb = s.fb := rfl
@[simp] theorem State.writeGroup_DT (s : State) (m : List Byte) : (s.writeGroup m).DT = s.DT := rfl
@[simp] theorem State.writeGroup_ST (s : State) (m : List Byte) : (s.writeGroup m).ST = s.ST := rfl
@[simp] theorem State.writeGroup_key (s : State) (m : List Byte) : (s.writeGroup m).key = s.key := rfl
@[simp] theorem State.writeGroup_draws (s : State) (m : List Byte) : (s.writeGroup m).draws = s.draws := rfl

/-! ## writeResultThenFlag -/

@[simp] theorem State.writeResultThenFlag_I (s : State) (x : Reg) (v : Byte) (c : Bool) : (s.writeResultThenFlag x v c).I = s.I := rfl
@[simp] theorem State.writeResultThenFlag_pc (s : State) (x : Reg) (v : Byte) (c : Bool) : (s.writeResultThenFlag x v c).pc = s.pc := rfl
@[simp] theorem State.writeResultThenFlag_stack (s : State) (x : Reg) (v : Byte) (c : Bool) : (s.writeResultThenFlag x v c).stack = s.stack := rfl
@[simp] theorem State.writeResultThenFlag_sp (s : State) (x : Reg) (v : Byte) (c : Bool) : (s.writeResultThenFlag x v c).sp = s.sp := rfl
@[simp] theorem State.writeResultThenFlag_mem (s : State) (x : Reg) (v : Byte) (c : Bool) : (s.writeResultThenFlag x v c).mem = s.mem := rfl
@[simp] theorem State.writeResultThenFlag_fb (s : State) (x : Reg) (v : Byte) (c : Bool) : (s.writeResultThenFlag x v c).fb = s.fb := rfl
@[simp] theorem State.writeResultThenFlag_DT (s : State) (x : Reg) (v : Byte) (c : Bool) : (s.writeResultThenFlag x v c).DT = s.DT := rfl
@[simp] theorem State.writeResultThenFlag_ST (s : State) (x : Reg) (v : Byte) (c : Bool) : (s.writeResultThenFlag x v c).ST = s.ST := rfl
@[simp] theorem State.writeResultThenFlag_key (s : State) (x : Reg) (v : Byte) (c : Bool) : (s.writeResultThenFlag x v c).key = s.key := rfl
@[simp] theorem State.writeResultThenFlag_draws (s : State) (x : Reg) (v : Byte) (c : Bool) : (s.writeResultThenFlag x v c).draws = s.draws := rfl

/-! ## writeFlagThenResult -/

@[simp] theorem State.writeFlagThenResult_I (s : State) (x : Reg) (v : Byte) (c : Bool) : (s.writeFlagThenResult x v c).I = s.I := rfl
@[simp] theorem State.writeFlagThenResult_pc (s : State) (x : Reg) (v : Byte) (c : Bool) : (s.writeFlagThenResult x v c).pc = s.pc := rfl
@[simp] theorem State.writeFlagThenResult_stack (s : State) (x : Reg) (v : Byte) (c : Bool) : (s.writeFlagThenResult x v c).stack = s.stack := rfl
@[simp] theorem State.writeFlagThenResult_sp (s : State) (x : Reg) (v : Byte) (c : Bool) : (s.writeFlagThenResult x v c).sp = s.sp := rfl
@[simp] theorem State.writeFlagThenResult_mem (s : State) (x : Reg) (v : Byte) (c : Bool) : (s.writeFlagThenResult x v c).mem = s.mem := rfl
@[simp] theorem State.writeFlagThenResult_fb (s : State) (x : Reg) (v : Byte) (c : Bool) : (s.writeFlagThenResult x v c).fb = s.fb := rfl
@[simp] theorem State.writeFlagThenResult_DT (s : State) (x : Reg) (v : Byte) (c : Bool) : (s.writeFlagThenResult x v c).DT = s.DT := rfl
@[simp] theorem State.writeFlagThenResult_ST (s : State) (x : Reg) (v : Byte) (c : Bool) : (s.writeFlagThenResult x v c).ST = s.ST := rfl
@[simp] theorem State.writeFlagThenResult_key (s : State) (x : Reg) (v : Byte) (c : Bool) : (s.writeFlagThenResult x v c).key = s.key := rfl
@[simp] theorem State.writeFlagThenResult_draws (s : State) (x : Reg) (v : Byte) (c : Bool) : (s.writeFlagThenResult x v c).draws = s.draws := rfl

/-! ## drawRandom -/

@[simp] theorem State.drawRandom_I (s : State) (r : Byte) (x : Reg) (kk : Byte) : (s.drawRandom r x kk).I = s.I := rfl
@[simp] theorem State.drawRandom_pc (s : State) (r : Byte) (x : Reg) (kk : Byte) : (s.drawRandom r x kk).pc = s.pc := rfl
@[simp] theorem State.drawRandom_stack (s : State) (r : Byte) (x : Reg) (kk : Byte) : (s.drawRandom r x kk).stack = s.stack := rfl
@[simp] theorem State.drawRandom_sp (s : State) (r : Byte) (x : Reg) (kk : Byte) : (s.drawRandom r x kk).sp = s.sp := rfl
@[simp] theorem State.drawRandom_mem (s : State) (r : Byte) (x : Reg) (kk : Byte) : (s.drawRandom r x kk).mem = s.mem := rfl
@[simp] theorem State.drawRandom_fb (s : State) (r : Byte) (x : Reg) (kk : Byte) : (s.drawRandom r x kk).fb = s.fb := rfl
@[simp] theorem State.drawRandom_DT (s : State) (r : Byte) (x : Reg) (kk : Byte) : (s.drawRandom r x kk).DT = s.DT := rfl
@[simp] theorem State.drawRandom_ST (s : State) (r : Byte) (x : Reg) (kk : Byte) : (s.drawRandom r x kk).ST = s.ST := rfl
@[simp] theorem State.drawRandom_key (s : State) (r : Byte) (x : Reg) (kk : Byte) : (s.drawRandom r x kk).key = s.key := rfl
@[simp] theorem State.drawRandom_draws (s : State) (r : Byte) (x : Reg) (kk : Byte) : (s.drawRandom r x kk).draws = s.draws := rfl

/-! ## jump -/

@[simp] theorem State.jump_V (s : State) (target : Word) : (s.jump target).V = s.V := rfl
@[simp] theorem State.jump_I (s : State) (target : Word) : (s.jump target).I = s.I := rfl
@[simp] theorem State.jump_stack (s : State) (target : Word) : (s.jump target).stack = s.stack := rfl
@[simp] theorem State.jump_sp (s : State) (target : Word) : (s.jump target).sp = s.sp := rfl
@[simp] theorem State.jump_mem (s : State) (target : Word) : (s.jump target).mem = s.mem := rfl
@[simp] theorem State.jump_fb (s : State) (target : Word) : (s.jump target).fb = s.fb := rfl
@[simp] theorem State.jump_DT (s : State) (target : Word) : (s.jump target).DT = s.DT := rfl
@[simp] theorem State.jump_ST (s : State) (target : Word) : (s.jump target).ST = s.ST := rfl
@[simp] theorem State.jump_key (s : State) (target : Word) : (s.jump target).key = s.key := rfl
@[simp] theorem State.jump_draws (s : State) (target : Word) : (s.jump target).draws = s.draws := rfl

/-! ## advance -/

@[simp] theorem State.advance_V (s : State) : (s.advance).V = s.V := rfl
@[simp] theorem State.advance_I (s : State) : (s.advance).I = s.I := rfl
@[simp] theorem State.advance_stack (s : State) : (s.advance).stack = s.stack := rfl
@[simp] theorem State.advance_sp (s : State) : (s.advance).sp = s.sp := rfl
@[simp] theorem State.advance_mem (s : State) : (s.advance).mem = s.mem := rfl
@[simp] theorem State.advance_fb (s : State) : (s.advance).fb = s.fb := rfl
@[simp] theorem State.advance_DT (s : State) : (s.advance).DT = s.DT := rfl
@[simp] theorem State.advance_ST (s : State) : (s.advance).ST = s.ST := rfl
@[simp] theorem State.advance_key (s : State) : (s.advance).key = s.key := rfl
@[simp] theorem State.advance_draws (s : State) : (s.advance).draws = s.draws := rfl

/-! ## skipIf -/

@[simp] theorem State.skipIf_V (s : State) (c : Bool) : (s.skipIf c).V = s.V := rfl
@[simp] theorem State.skipIf_I (s : State) (c : Bool) : (s.skipIf c).I = s.I := rfl
@[simp] theorem State.skipIf_stack (s : State) (c : Bool) : (s.skipIf c).stack = s.stack := rfl
@[simp] theorem State.skipIf_sp (s : State) (c : Bool) : (s.skipIf c).sp = s.sp := rfl
@[simp] theorem State.skipIf_mem (s : State) (c : Bool) : (s.skipIf c).mem = s.mem := rfl
@[simp] theorem State.skipIf_fb (s : State) (c : Bool) : (s.skipIf c).fb = s.fb := rfl
@[simp] theorem State.skipIf_DT (s : State) (c : Bool) : (s.skipIf c).DT = s.DT := rfl
@[simp] theorem State.skipIf_ST (s : State) (c : Bool) : (s.skipIf c).ST = s.ST := rfl
@[simp] theorem State.skipIf_key (s : State) (c : Bool) : (s.skipIf c).key = s.key := rfl
@[simp] theorem State.skipIf_draws (s : State) (c : Bool) : (s.skipIf c).draws = s.draws := rfl

/-! ## tick -/

@[simp] theorem State.tick_V (s : State) : (s.tick).V = s.V := rfl
@[simp] theorem State.tick_I (s : State) : (s.tick).I = s.I := rfl
@[simp] theorem State.tick_pc (s : State) : (s.tick).pc = s.pc := rfl
@[simp] theorem State.tick_stack (s : State) : (s.tick).stack = s.stack := rfl
@[simp] theorem State.tick_sp (s : State) : (s.tick).sp = s.sp := rfl
@[simp] theorem State.tick_mem (s : State) : (s.tick).mem = s.mem := rfl
@[simp] theorem State.tick_fb (s : State) : (s.tick).fb = s.fb := rfl
@[simp] theorem State.tick_key (s : State) : (s.tick).key = s.key := rfl
@[simp] theorem State.tick_draws (s : State) : (s.tick).draws = s.draws := rfl

/-! ## The changed fields -/

@[simp] theorem State.jump_pc (s : State) (target : Word) : (s.jump target).pc = target := rfl
@[simp] theorem State.advance_pc (s : State) : s.advance.pc = s.pc + 2 := rfl
@[simp] theorem State.skipIf_pc (s : State) (c : Bool) : (s.skipIf c).pc = if c then s.pc + 4 else s.pc + 2 := rfl
@[simp] theorem State.tick_DT (s : State) : s.tick.DT = countDown s.DT := rfl
@[simp] theorem State.tick_ST (s : State) : s.tick.ST = countDown s.ST := rfl

/-! ## Reading a register after an update -/

theorem State.readV_writeV (s : State) (x y : Reg) (v : Byte) :
    (s.writeV x v).readV y = if y = x then v else s.readV y := by
  simp only [State.readV, State.writeV, Vector.getElem_set, Fin.ext_iff, eq_comm]

@[simp] theorem State.readV_writeV_self (s : State) (x : Reg) (v : Byte) : (s.writeV x v).readV x = v := by
  simp [State.readV_writeV]

theorem State.readV_writeV_of_ne (s : State) {x y : Reg} (v : Byte) (h : y ≠ x) :
    (s.writeV x v).readV y = s.readV y := by
  simp [State.readV_writeV, h]

@[simp] theorem State.readV_advance (s : State) (y : Reg) : s.advance.readV y = s.readV y := rfl
@[simp] theorem State.readV_jump (s : State) (target : Word) (y : Reg) : (s.jump target).readV y = s.readV y := rfl
@[simp] theorem State.readV_skipIf (s : State) (c : Bool) (y : Reg) : (s.skipIf c).readV y = s.readV y := rfl
@[simp] theorem State.readV_tick (s : State) (y : Reg) : s.tick.readV y = s.readV y := rfl

/-- The later write remains: with `x = F` the flag (41_alu.md R80). -/
theorem State.readV_writeResultThenFlag (s : State) (x y : Reg) (v : Byte) (c : Bool) :
    (s.writeResultThenFlag x v c).readV y = if y = regF then flagByte c else if y = x then v else s.readV y := by
  simp only [State.writeResultThenFlag, State.readV_writeV]

/-- The later write remains: with `x = F` the result (41_alu.md R80). -/
theorem State.readV_writeFlagThenResult (s : State) (x y : Reg) (v : Byte) (c : Bool) :
    (s.writeFlagThenResult x v c).readV y = if y = x then v else if y = regF then flagByte c else s.readV y := by
  simp only [State.writeFlagThenResult, State.readV_writeV]

/-- `V[i] <- m[i]` for every `i` that `m` has (42_index_and_memory.md R106). -/
theorem State.readV_writeGroup (s : State) (m : List Byte) (y : Reg) :
    (s.writeGroup m).readV y = m.getD y.val (s.readV y) := by
  simp [State.readV, State.writeGroup]

/-- Two states with the same registers read the same `V`. -/
theorem State.V_ext {s t : State} (h : ∀ r, t.readV r = s.readV r) : t.V = s.V := by
  apply Vector.ext
  intro i hi
  exact h ⟨i, hi⟩

end Sys2Proof.Machine
end

