-- ==== Sys2Proof/Laws/Ops.lean ====
section
/-! SUPPORT. One lemma per shared operation that says once everything it can do; provers cite these and do not unfold the
operations. -/

namespace Sys2Proof.Machine

/-! ## Faults -/

@[simp] theorem attempt_ok {α : Type} (a : α) (k : α → Host.Outcome State Fault Refusal) : attempt (.ok a) k = k a := rfl

@[simp] theorem attempt_error {α : Type} (f : Fault) (k : α → Host.Outcome State Fault Refusal) :
    attempt (.error f) k = .fault f := rfl

/-- A checked operation that goes on to a next state did not fault. -/
theorem attempt_next {α : Type} {e : Except Fault α} {k : α → Host.Outcome State Fault Refusal} {t : State}
    (h : attempt e k = .next t) : ∃ a, e = .ok a ∧ k a = .next t := by
  cases e with
  | ok a => exact ⟨a, rfl, h⟩
  | error f => simp at h

/-- A checked operation that ends in a fault took its own or went on to one. -/
theorem attempt_fault {α : Type} {e : Except Fault α} {k : α → Host.Outcome State Fault Refusal} {f : Fault}
    (h : attempt e k = .fault f) : e = .error f ∨ ∃ a, e = .ok a ∧ k a = .fault f := by
  cases e with
  | ok a => exact .inr ⟨a, rfl, h⟩
  | error g => simp only [attempt_error, Host.Outcome.fault.injEq] at h; exact .inl (by rw [h])

/-- A checked operation that ends in a refusal went on to one. -/
theorem attempt_refused {α : Type} {e : Except Fault α} {k : α → Host.Outcome State Fault Refusal} {r : Refusal}
    (h : attempt e k = .refused r) : ∃ a, e = .ok a ∧ k a = .refused r := by
  cases e with
  | ok a => exact ⟨a, rfl, h⟩
  | error f => simp at h

/-! ## Memory accesses -/

/-- The two cases of the range check, one of which holds (20_memory.md R33, R34). -/
theorem checkRange_cases (kind : AccessKind) (addr n : Nat) :
    ((n = 0 ∨ addr + n ≤ 4096) ∧ checkRange kind addr n = .ok ()) ∨
    (0 < n ∧ 4096 < addr + n ∧ checkRange kind addr n = .error (.addressOutOfRange kind (max addr 4096))) := by
  unfold checkRange
  by_cases h : n ≥ 1 ∧ addr + n - 1 ≥ Config.memSize
  · refine .inr ⟨by omega, ?_, if_pos h⟩
    have := h.2
    simp only [Config.memSize] at this
    omega
  · refine .inl ⟨?_, if_neg h⟩
    simp only [Config.memSize] at h
    omega

theorem checkRange_ok {kind : AccessKind} {addr n : Nat} (h : addr + n ≤ 4096) : checkRange kind addr n = .ok () := by
  rcases checkRange_cases kind addr n with ⟨_, e⟩ | ⟨_, h', _⟩
  · exact e
  · omega

theorem checkRange_error {kind : AccessKind} {addr n : Nat} (hn : 0 < n) (h : 4096 < addr + n) :
    checkRange kind addr n = .error (.addressOutOfRange kind (max addr 4096)) := by
  rcases checkRange_cases kind addr n with ⟨h', _⟩ | ⟨_, _, e⟩
  · omega
  · exact e

/-- What a read can do: the bytes of an access in range, or the fault (20_memory.md R33). -/
theorem memRead_cases (s : State) (kind : AccessKind) (addr n : Nat) :
    ((n = 0 ∨ addr + n ≤ 4096) ∧ s.memRead kind addr n = .ok (s.mem.bytes addr n)) ∨
    (0 < n ∧ 4096 < addr + n ∧ s.memRead kind addr n = .error (.addressOutOfRange kind (max addr 4096))) := by
  rcases checkRange_cases kind addr n with ⟨h, e⟩ | ⟨h, h', e⟩
  · exact .inl ⟨h, by rw [State.memRead, e]; rfl⟩
  · exact .inr ⟨h, h', by rw [State.memRead, e]; rfl⟩

/-- What a write can do: all of it, or the fault and none of it (20_memory.md R34). -/
theorem memWrite_cases (s : State) (addr : Nat) (v : List Byte) :
    ((v.length = 0 ∨ addr + v.length ≤ 4096) ∧
      s.memWrite addr v = .ok { s with mem := s.mem.putBytes addr v }) ∨
    (0 < v.length ∧ 4096 < addr + v.length ∧
      s.memWrite addr v = .error (.addressOutOfRange .store (max addr 4096))) := by
  rcases checkRange_cases .store addr v.length with ⟨h, e⟩ | ⟨h, h', e⟩
  · exact .inl ⟨h, by rw [State.memWrite, e]; rfl⟩
  · exact .inr ⟨h, h', by rw [State.memWrite, e]; rfl⟩

/-- A checked write keeps the canonical form of memory. -/
theorem memWrite_wf {s t : State} {addr : Nat} {v : List Byte} (hm : s.mem.wf) (h : s.memWrite addr v = .ok t) :
    t.mem.wf := by
  rcases memWrite_cases s addr v with ⟨hr, e⟩ | ⟨_, _, e⟩
  · rw [e] at h
    cases h
    rcases hr with hz | hr
    · rw [List.length_eq_zero_iff.1 hz]; exact hm
    · exact Memory.wf_putBytes hm (by simpa using hr)
  · rw [e] at h; cases h

/-- What the fetch can do: the big-endian word at `pc`, or the fault (20_memory.md R36). -/
theorem fetch_cases (s : State) :
    (s.pc.toNat ≤ 4094 ∧
      s.fetch = .ok (wordOfBytes (s.mem.byte s.pc.toNat) (s.mem.byte (s.pc.toNat + 1)))) ∨
    (4095 ≤ s.pc.toNat ∧ s.fetch = .error (.addressOutOfRange .fetch (max s.pc.toNat 4096))) := by
  rcases checkRange_cases .fetch s.pc.toNat 2 with ⟨h, e⟩ | ⟨h, h', e⟩
  · exact .inl ⟨by omega, by rw [State.fetch, e]; rfl⟩
  · exact .inr ⟨by omega, by rw [State.fetch, e]; rfl⟩

/-! ## The call stack -/

theorem push_ok {s : State} (h : s.sp.val < 16) :
    s.push = .ok { s with stack := s.stack.set s.sp.val s.pc, sp := ⟨s.sp.val + 1, by omega⟩ } := dif_pos h

theorem push_error {s : State} (h : s.sp.val = 16) : s.push = .error .stackOverflow := dif_neg (by omega)

theorem pop_ok {s : State} (h : 0 < s.sp.val) :
    s.pop = .ok (s.stack[s.sp.val - 1]'(by omega), { s with sp := ⟨s.sp.val - 1, by omega⟩ }) := dif_pos h

theorem pop_error {s : State} (h : s.sp.val = 0) : s.pop = .error .stackUnderflow := dif_neg (by omega)

/-! ## The keypad -/

theorem keyDownAt_ok {s : State} {k : Byte} (h : k.toNat < 16) : s.keyDownAt k = .ok s.key[k.toNat] := dif_pos h

theorem keyDownAt_error {s : State} {k : Byte} (h : 16 ≤ k.toNat) : s.keyDownAt k = .error (.keyIndexOutOfRange k) :=
  dif_neg (by omega)

/-- The key found is down and every lower one is up (44_random_keys_timers.md R124). -/
theorem lowestKeyDown_some {s : State} {k : Fin 16} (h : s.lowestKeyDown = some k) :
    s.key[k.val] = true ∧ ∀ j : Fin 16, j < k → s.key[j.val] = false := by
  obtain ⟨hk, i, hi, he, hlt⟩ := List.find?_eq_some_iff_getElem.1 h
  have hki : k.val = i := by simpa [List.getElem_finRange] using (congrArg Fin.val he).symm
  refine ⟨hk, fun j hj => ?_⟩
  have hj' : j.val < i := by omega
  have := hlt j.val hj'
  simpa [List.getElem_finRange] using this

/-- No key found: every key is up. -/
theorem lowestKeyDown_none {s : State} (h : s.lowestKeyDown = none) (j : Fin 16) : s.key[j.val] = false := by
  simpa using List.find?_eq_none.1 h j (List.mem_finRange j)

/-- A key that is down makes the scan find one. -/
theorem lowestKeyDown_isSome {s : State} {j : Fin 16} (h : s.key[j.val] = true) : ∃ k, s.lowestKeyDown = some k := by
  cases e : s.lowestKeyDown with
  | none => have := lowestKeyDown_none e j; simp_all
  | some k => exact ⟨k, rfl⟩

/-! ## The framebuffer -/

/-- A pixel of a framebuffer, by its row and column. -/
theorem pixel_eq (fb : Framebuffer) {d : Nat} (h : d < 2048) :
    pixel fb d = (fb[d / 64]'(by omega)).getLsbD (d % 64) := by
  have h' : d / 64 < 32 := by omega
  simp [pixel, List.getD_eq_getElem?_getD, h']

/-- Flipping a pixel inverts it and leaves every other alone. -/
theorem pixel_flipPixel (fb : Framebuffer) {d e : Nat} (hd : d < 2048) (he : e < 2048) :
    pixel (flipPixel fb d) e = if e = d then !pixel fb e else pixel fb e := by
  have he2 : e % 64 < 64 := by omega
  rw [pixel_eq _ he, pixel_eq _ he]
  simp only [flipPixel, Vector.getElem_ofFn, Config.fbWidth]
  by_cases hr : e / 64 = d / 64
  · rw [if_pos hr, BitVec.getLsbD_xor, BitVec.getLsbD_twoPow]
    by_cases hc : e % 64 = d % 64
    · have : e = d := by omega
      simp [this, show d % 64 < 64 by omega]
    · have : e ≠ d := by omega
      simp [this, Ne.symm hc]
  · have : e ≠ d := by rintro rfl; exact hr rfl
    simp [hr, this]

@[simp] theorem pixel_clearedFb (d : Nat) : pixel clearedFb d = false := by
  by_cases h : d < 2048
  · simp [pixel_eq _ h, clearedFb]
  · have : ¬ d / 64 < 32 := by omega
    simp [pixel, clearedFb, this]

/-- Two framebuffers with the same pixels are the same. -/
theorem framebuffer_ext {f g : Framebuffer} (h : ∀ d < 2048, pixel f d = pixel g d) : f = g := by
  apply Vector.ext
  intro y hy
  apply BitVec.eq_of_getLsbD_eq
  intro x hx
  have hd : y * 64 + x < 2048 := by omega
  have := h _ hd
  rw [pixel_eq _ hd, pixel_eq _ hd] at this
  simpa [show (y * 64 + x) / 64 = y by omega, show (y * 64 + x) % 64 = x by omega] using this

theorem pixelIndex_lt (xs ys : Byte) (r c : Nat) : pixelIndex xs ys r c < 2048 := Nat.mod_lt _ (by decide)

/-- One sprite bit: a set bit inverts its pixel and leaves every other alone (43_display.md R111). -/
theorem pixel_drawBit (xs ys row : Byte) (r c : Nat) (cv : Canvas) {e : Nat} (he : e < 2048) :
    pixel (drawBit xs ys row r c cv).fb e =
      ((row.getLsbD (7 - c) && decide (e = pixelIndex xs ys r c)) ^^ pixel cv.fb e) := by
  unfold drawBit
  split
  · next h =>
    rw [pixel_flipPixel _ (pixelIndex_lt xs ys r c) he]
    by_cases hd : e = pixelIndex xs ys r c <;> simp [h, hd]
  · next h => simp [h]

/-- One sprite bit: a set bit on a pixel that is on collides (43_display.md R111). -/
theorem collided_drawBit (xs ys row : Byte) (r c : Nat) (cv : Canvas) :
    (drawBit xs ys row r c cv).collided =
      (cv.collided || (row.getLsbD (7 - c) && pixel cv.fb (pixelIndex xs ys r c))) := by
  unfold drawBit
  split <;> next h => simp [h]

/-! ## The timers -/

/-- One count down: to the number below, and 0 stays 0 (60_exceptions.md R150). -/
@[simp] theorem countDown_toNat (t : Byte) : (countDown t).toNat = t.toNat - 1 := by
  have := t.isLt
  unfold countDown
  split
  · rw [BitVec.toNat_sub]; simp; omega
  · omega

end Sys2Proof.Machine
end

