-- ==== Sys2Proof/Laws/PerInstr.lean ====
section
/-! SUPPORT. Per-instruction laws about the syntax. `EncodesRow`: the word the encoder writes for an instruction matches that
instruction's own row of the opcode table, "iff `w & mask = match`" (30_encoding.md R55). -/

namespace Sys2Proof.Laws

theorem and_ones4 (a : BitVec 4) : a &&& 0xF#4 = a := BitVec.and_allOnes

theorem and_ones8 (a : BitVec 8) : a &&& 0xFF#8 = a := BitVec.and_allOnes

/-- Masking the format `op nnn` with 0xF000 leaves the op. -/
theorem formatNNN_and_F000 (op : BitVec 4) (nnn : BitVec 12) : formatNNN op nnn &&& 0xF000 = formatNNN op 0 := by
  show (op ++ nnn) &&& (0xF#4 ++ 0#12) = op ++ 0#12
  rw [BitVec.and_append, and_ones4]
  simp

/-- Masking the format `op x kk` with 0xF000 leaves the op. -/
theorem formatXKK_and_F000 (op : BitVec 4) (x : Reg) (kk : Byte) : formatXKK op x kk &&& 0xF000 = formatXKK op 0 0 := by
  show (op ++ BitVec.ofNat 4 x.val ++ kk) &&& (0xF#4 ++ 0#4 ++ 0#8) = op ++ 0#4 ++ 0#8
  rw [BitVec.and_append, BitVec.and_append, and_ones4]
  simp

/-- Masking the format `op x kk` with 0xF0FF leaves the op and the low byte. -/
theorem formatXKK_and_F0FF (op : BitVec 4) (x : Reg) (kk : Byte) : formatXKK op x kk &&& 0xF0FF = formatXKK op 0 kk := by
  show (op ++ BitVec.ofNat 4 x.val ++ kk) &&& (0xF#4 ++ 0#4 ++ 0xFF#8) = op ++ 0#4 ++ kk
  rw [BitVec.and_append, BitVec.and_append, and_ones4, and_ones8]
  simp

/-- Masking the format `op x y n` with 0xF00F leaves the op and the low nibble. -/
theorem formatXYN_and_F00F (op : BitVec 4) (x y : Reg) (n : BitVec 4) :
    formatXYN op x y n &&& 0xF00F = formatXYN op 0 0 n := by
  show (op ++ BitVec.ofNat 4 x.val ++ BitVec.ofNat 4 y.val ++ n) &&& (0xF#4 ++ 0#4 ++ 0#4 ++ 0xF#4) = op ++ 0#4 ++ 0#4 ++ n
  rw [BitVec.and_append, BitVec.and_append, BitVec.and_append, and_ones4]
  simp [and_ones4]

/-- Masking the format `op x y n` with 0xF000 leaves the op. -/
theorem formatXYN_and_F000 (op : BitVec 4) (x y : Reg) (n : BitVec 4) :
    formatXYN op x y n &&& 0xF000 = formatXYN op 0 0 0 := by
  show (op ++ BitVec.ofNat 4 x.val ++ BitVec.ofNat 4 y.val ++ n) &&& (0xF#4 ++ 0#4 ++ 0#4 ++ 0#4) = op ++ 0#4 ++ 0#4 ++ 0#4
  rw [BitVec.and_append, BitVec.and_append, BitVec.and_append, and_ones4]
  simp

/-- A row accepts a word as soon as the masked word is its match bits. -/
theorem accepts_of_and_eq {p : String} {mask m w u : Word} (h : w &&& mask = u) (e : u = m) :
    OpcodeRow.accepts ⟨p, mask, m⟩ w = true := by
  simp [OpcodeRow.accepts, h, e]

/-- The word of the instruction matches its own row of the table. -/
def EncodesRow.Statement (i : Instr) : Prop :=
  ∃ row, opcodeTable[i.rowIndex]? = some row ∧ row.accepts (encode i) = true


theorem EncodesRow.cls : EncodesRow.Statement .cls :=
  ⟨_, rfl, rfl⟩

theorem EncodesRow.ret : EncodesRow.Statement .ret :=
  ⟨_, rfl, rfl⟩

theorem EncodesRow.jp (nnn : BitVec 12) : EncodesRow.Statement (.jp nnn) :=
  ⟨_, rfl, accepts_of_and_eq (formatNNN_and_F000 _ _) rfl⟩

theorem EncodesRow.call (nnn : BitVec 12) : EncodesRow.Statement (.call nnn) :=
  ⟨_, rfl, accepts_of_and_eq (formatNNN_and_F000 _ _) rfl⟩

theorem EncodesRow.seImm (x : Reg) (kk : Byte) : EncodesRow.Statement (.seImm x kk) :=
  ⟨_, rfl, accepts_of_and_eq (formatXKK_and_F000 _ _ _) rfl⟩

theorem EncodesRow.sneImm (x : Reg) (kk : Byte) : EncodesRow.Statement (.sneImm x kk) :=
  ⟨_, rfl, accepts_of_and_eq (formatXKK_and_F000 _ _ _) rfl⟩

theorem EncodesRow.seReg (x y : Reg) : EncodesRow.Statement (.seReg x y) :=
  ⟨_, rfl, accepts_of_and_eq (formatXYN_and_F00F _ _ _ _) rfl⟩

theorem EncodesRow.ldImm (x : Reg) (kk : Byte) : EncodesRow.Statement (.ldImm x kk) :=
  ⟨_, rfl, accepts_of_and_eq (formatXKK_and_F000 _ _ _) rfl⟩

theorem EncodesRow.addImm (x : Reg) (kk : Byte) : EncodesRow.Statement (.addImm x kk) :=
  ⟨_, rfl, accepts_of_and_eq (formatXKK_and_F000 _ _ _) rfl⟩

theorem EncodesRow.ldReg (x y : Reg) : EncodesRow.Statement (.ldReg x y) :=
  ⟨_, rfl, accepts_of_and_eq (formatXYN_and_F00F _ _ _ _) rfl⟩

theorem EncodesRow.orReg (x y : Reg) : EncodesRow.Statement (.orReg x y) :=
  ⟨_, rfl, accepts_of_and_eq (formatXYN_and_F00F _ _ _ _) rfl⟩

theorem EncodesRow.andReg (x y : Reg) : EncodesRow.Statement (.andReg x y) :=
  ⟨_, rfl, accepts_of_and_eq (formatXYN_and_F00F _ _ _ _) rfl⟩

theorem EncodesRow.xorReg (x y : Reg) : EncodesRow.Statement (.xorReg x y) :=
  ⟨_, rfl, accepts_of_and_eq (formatXYN_and_F00F _ _ _ _) rfl⟩

theorem EncodesRow.addReg (x y : Reg) : EncodesRow.Statement (.addReg x y) :=
  ⟨_, rfl, accepts_of_and_eq (formatXYN_and_F00F _ _ _ _) rfl⟩

theorem EncodesRow.subReg (x y : Reg) : EncodesRow.Statement (.subReg x y) :=
  ⟨_, rfl, accepts_of_and_eq (formatXYN_and_F00F _ _ _ _) rfl⟩

theorem EncodesRow.shr (x : Reg) : EncodesRow.Statement (.shr x) :=
  ⟨_, rfl, accepts_of_and_eq (formatXYN_and_F00F _ _ _ _) rfl⟩

theorem EncodesRow.subnReg (x y : Reg) : EncodesRow.Statement (.subnReg x y) :=
  ⟨_, rfl, accepts_of_and_eq (formatXYN_and_F00F _ _ _ _) rfl⟩

theorem EncodesRow.shl (x : Reg) : EncodesRow.Statement (.shl x) :=
  ⟨_, rfl, accepts_of_and_eq (formatXYN_and_F00F _ _ _ _) rfl⟩

theorem EncodesRow.sneReg (x y : Reg) : EncodesRow.Statement (.sneReg x y) :=
  ⟨_, rfl, accepts_of_and_eq (formatXYN_and_F00F _ _ _ _) rfl⟩

theorem EncodesRow.ldI (nnn : BitVec 12) : EncodesRow.Statement (.ldI nnn) :=
  ⟨_, rfl, accepts_of_and_eq (formatNNN_and_F000 _ _) rfl⟩

theorem EncodesRow.jpV0 (nnn : BitVec 12) : EncodesRow.Statement (.jpV0 nnn) :=
  ⟨_, rfl, accepts_of_and_eq (formatNNN_and_F000 _ _) rfl⟩

theorem EncodesRow.rnd (x : Reg) (kk : Byte) : EncodesRow.Statement (.rnd x kk) :=
  ⟨_, rfl, accepts_of_and_eq (formatXKK_and_F000 _ _ _) rfl⟩

theorem EncodesRow.drw (x y : Reg) (n : Nat) : EncodesRow.Statement (.drw x y n) :=
  ⟨_, rfl, accepts_of_and_eq (formatXYN_and_F000 _ _ _ _) rfl⟩

theorem EncodesRow.skp (x : Reg) : EncodesRow.Statement (.skp x) :=
  ⟨_, rfl, accepts_of_and_eq (formatXKK_and_F0FF _ _ _) rfl⟩

theorem EncodesRow.sknp (x : Reg) : EncodesRow.Statement (.sknp x) :=
  ⟨_, rfl, accepts_of_and_eq (formatXKK_and_F0FF _ _ _) rfl⟩

theorem EncodesRow.ldVDT (x : Reg) : EncodesRow.Statement (.ldVDT x) :=
  ⟨_, rfl, accepts_of_and_eq (formatXKK_and_F0FF _ _ _) rfl⟩

theorem EncodesRow.ldVK (x : Reg) : EncodesRow.Statement (.ldVK x) :=
  ⟨_, rfl, accepts_of_and_eq (formatXKK_and_F0FF _ _ _) rfl⟩

theorem EncodesRow.ldDTV (x : Reg) : EncodesRow.Statement (.ldDTV x) :=
  ⟨_, rfl, accepts_of_and_eq (formatXKK_and_F0FF _ _ _) rfl⟩

theorem EncodesRow.ldSTV (x : Reg) : EncodesRow.Statement (.ldSTV x) :=
  ⟨_, rfl, accepts_of_and_eq (formatXKK_and_F0FF _ _ _) rfl⟩

theorem EncodesRow.addI (x : Reg) : EncodesRow.Statement (.addI x) :=
  ⟨_, rfl, accepts_of_and_eq (formatXKK_and_F0FF _ _ _) rfl⟩

theorem EncodesRow.ldF (x : Reg) : EncodesRow.Statement (.ldF x) :=
  ⟨_, rfl, accepts_of_and_eq (formatXKK_and_F0FF _ _ _) rfl⟩

theorem EncodesRow.ldB (x : Reg) : EncodesRow.Statement (.ldB x) :=
  ⟨_, rfl, accepts_of_and_eq (formatXKK_and_F0FF _ _ _) rfl⟩

theorem EncodesRow.storeRegs (x : Reg) : EncodesRow.Statement (.storeRegs x) :=
  ⟨_, rfl, accepts_of_and_eq (formatXKK_and_F0FF _ _ _) rfl⟩

theorem EncodesRow.loadRegs (x : Reg) : EncodesRow.Statement (.loadRegs x) :=
  ⟨_, rfl, accepts_of_and_eq (formatXKK_and_F0FF _ _ _) rfl⟩

end Sys2Proof.Laws
end

