-- ==== Sys2Proof/Laws/Step.lean ====
section
/-! SUPPORT. What a cycle can do, said once: the phases of 45_host_operations.md R132 as inversion lemmas. -/

namespace Sys2Proof.Machine

@[simp] theorem endCycle_next (t : State) : endCycle (.next t) = .next t.tick := rfl
@[simp] theorem endCycle_fault (f : Fault) : endCycle (.fault f) = .fault f := rfl
@[simp] theorem endCycle_refused (r : Refusal) : endCycle (.refused r) = .refused r := rfl

theorem endCycle_eq_next {o : Host.Outcome State Fault Refusal} {t : State} (h : endCycle o = .next t) :
    ∃ u, o = .next u ∧ t = u.tick := by
  cases o with
  | next u => exact ⟨u, rfl, by simpa using h.symm⟩
  | fault f => simp at h
  | refused r => simp at h

theorem execWord_ok {w : Word} {i : Instr} (h : decodeWord w = .ok i) (s : State) : execWord w s = exec i s := by
  rw [execWord, h]

theorem execWord_error {w : Word} {e : DecodeReject} (h : decodeWord w = .error e) (s : State) :
    execWord w s = .next s.advance := by
  rw [execWord, h]; rfl

/-- A cycle that completes fetched a word, ran an instruction or an unmatched word to a next state, and ticked. -/
theorem step_eq_next {s t : State} (h : step s = .next t) :
    ∃ w u, s.fetch = .ok w ∧ t = u.tick ∧
      ((∃ i, decodeWord w = .ok i ∧ exec i s = .next u) ∨ ((∃ e, decodeWord w = .error e) ∧ u = s.advance)) := by
  obtain ⟨w, hw, h⟩ := attempt_next h
  obtain ⟨u, hu, ht⟩ := endCycle_eq_next h
  refine ⟨w, u, hw, ht, ?_⟩
  cases hd : decodeWord w with
  | ok i => exact .inl ⟨i, rfl, by rw [← execWord_ok hd]; exact hu⟩
  | error e =>
    rw [execWord_error hd] at hu
    exact .inr ⟨⟨e, rfl⟩, by simpa using hu.symm⟩

end Sys2Proof.Machine
end

