-- ==== Sys2Proof/Tests/Slice0.lean ====
section
/-! SUPPORT. Tests of the model on fixed values, and for every statement with hypotheses a witness that meets them. The
expected results are the source's own worked examples (95_test_vectors.md part 1) and the spec's vectors (part 2), whose
rows the names follow. A word is written bit by bit from its pattern in 30_encoding.md R55. -/

namespace Sys2Proof.Machine.Tests

/-! ## Helpers -/

/-- `s` with some registers set. -/
def set (s : State) (l : List (Reg × Byte)) : State := l.foldl (fun s p => s.writeV p.1 p.2) s

/-- The reset state with some registers set. -/
def regs (l : List (Reg × Byte)) : State := set State.reset l

/-- `s` with bytes put in memory from `a` up. -/
def poke (s : State) (a : Nat) (v : List Byte) : State := { s with mem := s.mem.putBytes a v }

/-- `s` with some pixels inverted. -/
def light (s : State) (l : List Nat) : State := { s with fb := l.foldl flipPixel s.fb }

/-- The indices of the pixels of `l` that are on. -/
def litAmong (l : List Nat) (s : State) : List Nat := l.filter (pixel s.fb)

/-- `o` is a next state, of which `p` holds. -/
def nextHas (o : Host.Outcome State Fault Refusal) (p : State → Bool) : Bool :=
  match o with
  | .next t => p t
  | .fault _ => false
  | .refused _ => false

/-- `o` is the fault `f`. -/
def faultIs (o : Host.Outcome State Fault Refusal) (f : Fault) : Bool :=
  match o with
  | .next _ => false
  | .fault g => g = f
  | .refused _ => false

/-- One cycle that runs the word `w` from `s`, and the test of the state after it. -/
def runs (w : Nat) (s : State) (p : State → Bool) : Bool := nextHas (step (s.withFetchWord 16 w)) p

/-- One cycle that runs the word `w` from `s` faults with `f`. -/
def traps (w : Nat) (s : State) (f : Fault) : Bool := faultIs (step (s.withFetchWord 16 w)) f

/-! ## Well-formedness: the one check -/

theorem test_wellFormed_refuses_sixteen_rows : (Instr.drw 0 0 16).wellFormed = false := by decide

theorem test_wellFormed_accepts_fifteen_rows : (Instr.drw 15 15 15).wellFormed = true := by decide

/-! ## Decoding, one word of each row of R55 -/

theorem test_decode_cls : decodeWord 0b0000000011100000 = .ok (.cls) := by decide
theorem test_decode_ret : decodeWord 0b0000000011101110 = .ok (.ret) := by decide
theorem test_decode_jp : decodeWord 0b0001101010111100 = .ok (.jp 0xABC) := by decide
theorem test_decode_call : decodeWord 0b0010001100000001 = .ok (.call 0x301) := by decide
theorem test_decode_seImm : decodeWord 0b0011101001111111 = .ok (.seImm 10 0x7F) := by decide
theorem test_decode_sneImm : decodeWord 0b0100000111111110 = .ok (.sneImm 1 0xFE) := by decide
theorem test_decode_seReg : decodeWord 0b0101000100100000 = .ok (.seReg 1 2) := by decide
theorem test_decode_ldImm : decodeWord 0b0110111110101011 = .ok (.ldImm 15 0xAB) := by decide
theorem test_decode_addImm : decodeWord 0b0111001010000001 = .ok (.addImm 2 0x81) := by decide
theorem test_decode_ldReg : decodeWord 0b1000001101000000 = .ok (.ldReg 3 4) := by decide
theorem test_decode_orReg : decodeWord 0b1000010101100001 = .ok (.orReg 5 6) := by decide
theorem test_decode_andReg : decodeWord 0b1000011110000010 = .ok (.andReg 7 8) := by decide
theorem test_decode_xorReg : decodeWord 0b1000100110100011 = .ok (.xorReg 9 10) := by decide
theorem test_decode_addReg : decodeWord 0b1000101111000100 = .ok (.addReg 11 12) := by decide
theorem test_decode_subReg : decodeWord 0b1000110111100101 = .ok (.subReg 13 14) := by decide
theorem test_decode_shr : decodeWord 0b1000111100010110 = .ok (.shr 15) := by decide
theorem test_decode_subnReg : decodeWord 0b1000000011110111 = .ok (.subnReg 0 15) := by decide
theorem test_decode_shl : decodeWord 0b1000000111111110 = .ok (.shl 1) := by decide
theorem test_decode_sneReg : decodeWord 0b1001001000110000 = .ok (.sneReg 2 3) := by decide
theorem test_decode_ldI : decodeWord 0b1010001011110000 = .ok (.ldI 0x2F0) := by decide
theorem test_decode_jpV0 : decodeWord 0b1011111111111110 = .ok (.jpV0 0xFFE) := by decide
theorem test_decode_rnd : decodeWord 0b1100001000001111 = .ok (.rnd 2 0x0F) := by decide
theorem test_decode_drw : decodeWord 0b1101000100100101 = .ok (.drw 1 2 5) := by decide
theorem test_decode_skp : decodeWord 0b1110001110011110 = .ok (.skp 3) := by decide
theorem test_decode_sknp : decodeWord 0b1110010010100001 = .ok (.sknp 4) := by decide
theorem test_decode_ldVDT : decodeWord 0b1111010100000111 = .ok (.ldVDT 5) := by decide
theorem test_decode_ldVK : decodeWord 0b1111011000001010 = .ok (.ldVK 6) := by decide
theorem test_decode_ldDTV : decodeWord 0b1111011100010101 = .ok (.ldDTV 7) := by decide
theorem test_decode_ldSTV : decodeWord 0b1111100000011000 = .ok (.ldSTV 8) := by decide
theorem test_decode_addI : decodeWord 0b1111100100011110 = .ok (.addI 9) := by decide
theorem test_decode_ldF : decodeWord 0b1111101000101001 = .ok (.ldF 10) := by decide
theorem test_decode_ldB : decodeWord 0b1111101100110011 = .ok (.ldB 11) := by decide
theorem test_decode_storeRegs : decodeWord 0b1111110001010101 = .ok (.storeRegs 12) := by decide
theorem test_decode_loadRegs : decodeWord 0b1111110101100101 = .ok (.loadRegs 13) := by decide

theorem test_decode_unmatched : decodeWord 0b1000000100101000 = .error (.unmatched 0x8128) := by decide

theorem test_decode_two_bytes_high_first : decode [0x6A, 0x07, 0xEE] = .ok (.ldImm 10 0x07, [0xEE]) := by decide

theorem test_decode_one_byte_rejected : decode [0x6A] = .error .truncated := by decide

/-! ## One cycle of each instruction -/

theorem test_cls : runs 0x00E0 (light (regs [(15, 1)]) [0, 5, 2047])
    (fun t => t.fb = clearedFb ∧ t.readV 15 = 1) = true := by decide

theorem test_ret_pops : runs 0x00EE { State.reset with sp := 1, stack := State.reset.stack.set 0 0x204 }
    (fun t => t.sp = 0 ∧ t.pc = 0x206) = true := by decide

theorem test_ret_underflows : traps 0x00EE State.reset (.stackUnderflow) = true := by decide

theorem test_jp : runs 0x1ABC State.reset (fun t => t.pc = 0xABC) = true := by decide

theorem test_call_last_entry : runs 0x2300 { State.reset with sp := 15 }
    (fun t => t.stack[15] = 0x200 ∧ t.sp = 16 ∧ t.pc = 0x300) = true := by decide

theorem test_call_overflows : traps 0x2300 { State.reset with sp := 16 } (.stackOverflow) = true := by decide

theorem test_jpV0_not_reduced : runs 0xBFFF (regs [(0, 0xFF)]) (fun t => t.pc = 0x10FE) = true := by decide

theorem test_seImm_skips : runs 0x3005 (regs [(0, 5)]) (fun t => t.pc = 0x204) = true := by decide

theorem test_seImm_beyond_memory : runs 0x3005 { regs [(0, 5)] with pc := 0xFFE }
    (fun t => t.pc = 0x1002) = true := by decide

theorem test_sneImm_skips : runs 0x4005 (regs [(0, 4)]) (fun t => t.pc = 0x204) = true := by decide

theorem test_sneImm_equal : runs 0x4005 (regs [(0, 5)]) (fun t => t.pc = 0x202) = true := by decide

theorem test_seReg_skips : runs 0x5120 (regs [(1, 7), (2, 7)]) (fun t => t.pc = 0x204) = true := by decide

theorem test_seReg_differs : runs 0x5120 (regs [(1, 7), (2, 8)]) (fun t => t.pc = 0x202) = true := by decide

theorem test_sneReg_skips : runs 0x9120 (regs [(1, 7), (2, 8)]) (fun t => t.pc = 0x204) = true := by decide

theorem test_sneReg_same_register : runs 0x9330 (regs [(3, 9)]) (fun t => t.pc = 0x202) = true := by decide

theorem test_ldImm : runs 0x6FAB State.reset (fun t => t.readV 15 = 0xAB ∧ t.pc = 0x202) = true := by decide

theorem test_addImm_wraps_no_flag : runs 0x7001 (regs [(0, 0xFF), (15, 7)])
    (fun t => t.readV 0 = 0 ∧ t.readV 15 = 7) = true := by decide

theorem test_ldReg : runs 0x8120 (regs [(2, 0x33)]) (fun t => t.readV 1 = 0x33 ∧ t.readV 2 = 0x33) = true := by decide

theorem test_orReg : runs 0x8121 (regs [(1, 0x0F), (2, 0xF0), (15, 9)])
    (fun t => t.readV 1 = 0xFF ∧ t.readV 15 = 9) = true := by decide

theorem test_andReg : runs 0x8122 (regs [(1, 0x3C), (2, 0x0F), (15, 9)])
    (fun t => t.readV 1 = 0x0C ∧ t.readV 15 = 9) = true := by decide

theorem test_xorReg : runs 0x8123 (regs [(1, 0xFF), (2, 0x0F), (15, 9)])
    (fun t => t.readV 1 = 0xF0 ∧ t.readV 15 = 9) = true := by decide

theorem test_addReg_carry : runs 0x8014 (regs [(0, 0xFF), (1, 1)])
    (fun t => t.readV 0 = 0 ∧ t.readV 15 = 1) = true := by decide

theorem test_addReg_into_flag : runs 0x8F14 (regs [(15, 0x10), (1, 0x20)]) (fun t => t.readV 15 = 0) = true := by decide

theorem test_subReg_borrow : runs 0x8015 (regs [(0, 1), (1, 2), (15, 1)])
    (fun t => t.readV 0 = 0xFF ∧ t.readV 15 = 0) = true := by decide

theorem test_subReg_flag_operand : runs 0x80F5 (regs [(0, 5), (15, 9)])
    (fun t => t.readV 0 = 0xFC ∧ t.readV 15 = 0) = true := by decide

theorem test_shr_ignores_y : runs 0x8016 (regs [(0, 4), (1, 0xFF), (15, 1)])
    (fun t => t.readV 0 = 2 ∧ t.readV 15 = 0) = true := by decide

theorem test_shr_of_flag : runs 0x8F06 (regs [(15, 7)]) (fun t => t.readV 15 = 3) = true := by decide

theorem test_subnReg : runs 0x8017 (regs [(0, 5), (1, 3), (15, 1)])
    (fun t => t.readV 0 = 0xFE ∧ t.readV 15 = 0) = true := by decide

theorem test_subnReg_equal : runs 0x8017 (regs [(0, 7), (1, 7)])
    (fun t => t.readV 0 = 0 ∧ t.readV 15 = 1) = true := by decide

theorem test_shl : runs 0x800E (regs [(0, 0x81)]) (fun t => t.readV 0 = 2 ∧ t.readV 15 = 1) = true := by decide

theorem test_shl_of_flag : runs 0x8F0E (regs [(15, 0x41)]) (fun t => t.readV 15 = 0x82) = true := by decide

theorem test_ldI : runs 0xAFFF { State.reset with I := 0x1234 } (fun t => t.I = 0xFFF) = true := by decide

theorem test_addI_wraps : runs 0xF11E { regs [(1, 1), (15, 5)] with I := 0xFFFF }
    (fun t => t.I = 0 ∧ t.readV 15 = 5) = true := by decide

theorem test_addI_no_flag_at_4096 : runs 0xF11E { regs [(1, 1)] with I := 0x0FFF }
    (fun t => t.I = 0x1000 ∧ t.readV 15 = 0) = true := by decide

theorem test_ldF_last_digit : runs 0xF029 (regs [(0, 0x0F)]) (fun t => t.I = 0x4B) = true := by decide

theorem test_ldF_not_masked : runs 0xF029 (regs [(0, 0x34)]) (fun t => t.I = 0x104) = true := by decide

theorem test_ldB : runs 0xF033 { regs [(0, 0x9C)] with I := 0x300 }
    (fun t => t.mem.bytes 0x300 3 = [1, 5, 6]) = true := by decide

theorem test_ldB_out_of_range : traps 0xF033 { regs [(0, 7)] with I := 0xFFE }
    (.addressOutOfRange .store 0x1000) = true := by decide

theorem test_storeRegs : runs 0xF255 { regs [(0, 1), (1, 2), (2, 3), (3, 4)] with I := 0x300 }
    (fun t => t.mem.bytes 0x300 4 = [1, 2, 3, 0] ∧ t.I = 0x300) = true := by decide

theorem test_storeRegs_no_wrap : traps 0xF155 { regs [(0, 0xAB)] with I := 0xFFFF }
    (.addressOutOfRange .store 0xFFFF) = true := by decide

theorem test_loadRegs : runs 0xF265 (poke { regs [(3, 0x77)] with I := 0x300 } 0x300 [1, 5, 6, 9])
    (fun t => t.V.toList.take 4 = [1, 5, 6, 0x77] ∧ t.I = 0x300) = true := by decide

theorem test_loadRegs_out_of_range : traps 0xF165 { State.reset with I := 0xFFF }
    (.addressOutOfRange .load 0x1000) = true := by decide

theorem test_drw_corner : runs 0xD011 (poke { regs [(0, 0x3C), (1, 0x1F)] with I := 0x300 } 0x300 [0xFF])
    (fun t => litAmong ([0, 1, 2, 3, 4, 1984] ++ [2043, 2044, 2045, 2046, 2047]) t = [0, 1, 2, 3, 2044, 2045, 2046, 2047]) = true := by
  decide

theorem test_drw_collides : runs 0xD011 (light (poke { State.reset with I := 0x300 } 0x300 [0xFF]) [7])
    (fun t => litAmong (List.range 9) t = [0, 1, 2, 3, 4, 5, 6] ∧ t.readV 15 = 1) = true := by decide

theorem test_rnd_masks : ((State.reset.drawRandom 0xA7 0 0x0F).readV 0 = 0x07) := by decide

theorem test_rnd_advances : runs 0xC00F State.reset (fun t => t.pc = 0x202 ∧ t.draws = 1) = true := by decide

theorem test_skp_down : runs 0xE09E ((regs [(0, 0x0A)]).keyDown 10) (fun t => t.pc = 0x204) = true := by decide

theorem test_skp_no_masking : traps 0xE09E ((regs [(0, 0xFF)]).keyDown 15)
    (.keyIndexOutOfRange 0xFF) = true := by decide

theorem test_sknp_up : runs 0xE0A1 (regs [(0, 0x0A)]) (fun t => t.pc = 0x204) = true := by decide

theorem test_sknp_down : runs 0xE0A1 ((regs [(0, 0x0A)]).keyDown 10) (fun t => t.pc = 0x202) = true := by decide

theorem test_ldVDT_before_tick : runs 0xF007 { State.reset with DT := 5 }
    (fun t => t.readV 0 = 5 ∧ t.DT = 4) = true := by decide

theorem test_ldVK_waits_and_ticks : runs 0xF30A { State.reset with DT := 3, ST := 1 }
    (fun t => t.pc = 0x200 ∧ t.DT = 2 ∧ t.ST = 0) = true := by decide

theorem test_ldVK_lowest : runs 0xF30A (((State.reset.keyDown 15).keyDown 9).keyDown 2)
    (fun t => t.readV 3 = 2 ∧ t.pc = 0x202) = true := by decide

theorem test_ldDTV_then_tick : runs 0xF015 (regs [(0, 5)]) (fun t => t.DT = 4) = true := by decide

theorem test_ldDTV_zero : runs 0xF015 { State.reset with DT := 9 } (fun t => t.DT = 0) = true := by decide

theorem test_ldSTV_then_tick : runs 0xF018 (regs [(0, 2)]) (fun t => t.ST = 1 ∧ t.DT = 0) = true := by decide

theorem test_unmatched_is_no_skip : runs 0x5121 (regs [(1, 7), (2, 7)]) (fun t => t.pc = 0x202) = true := by decide

theorem test_odd_pc : nextHas (step (poke { State.reset with pc := 0x201 } 0x201 [0x60, 0x07]))
    (fun t => t.readV 0 = 7 ∧ t.pc = 0x203) = true := by decide

theorem test_fetch_faults_at_last_byte :
    faultIs (step { State.reset with pc := 0xFFF }) (.addressOutOfRange .fetch 0x1000) = true := by decide

/-! ## The host's operations (95_test_vectors.md 2.7) -/

theorem test_load_program : (perform defaultFont (.loadProgram [0x12]) { State.reset with pc := 0xABC }).1.pc = 0x200 := by decide

theorem test_key_out_of_range_is_no_key : State.reset.keyDown 16 = State.reset := by decide

/-! ## Witnesses: for each statement with hypotheses, states and operands that meet them, clause by clause -/

/-- The state that `o` answers; `State.reset` where it answers none. -/
def nextOf (o : Host.Outcome State Fault Refusal) : State :=
  match o with
  | .next t => t
  | .fault _ => State.reset
  | .refused _ => State.reset

theorem nextOf_of_nextHas {o : Host.Outcome State Fault Refusal} (h : nextHas o (fun _ => true) = true) :
    o = .next (nextOf o) := by
  cases o with
  | next t => rfl
  | fault f => simp [nextHas] at h
  | refused r => simp [nextHas] at h

theorem of_faultIs {o : Host.Outcome State Fault Refusal} {f : Fault} (h : faultIs o f = true) : o = .fault f := by
  cases o with
  | next t => simp [faultIs] at h
  | fault g => simpa [faultIs] using h
  | refused r => simp [faultIs] at h

/-- A state whose fetch and decoding give the instruction `j` executes no other. -/
theorem not_executes {s : State} {w : Word} {i j : Instr} (hw : s.fetch = .ok w) (hd : decodeWord w = .ok j) (hne : i ≠ j) :
    ¬s.executes i := by
  rintro ⟨v, hv, hi⟩
  rw [hw] at hv
  cases hv
  rw [hd] at hi
  cases hi
  exact hne rfl

/-- The reset state with one word at `pc`. -/
def placed (w : Nat) : State := State.reset.withFetchWord 16 w

theorem witness_DecodeEncodeRoundTrip :
    (Instr.drw 15 15 15).wellFormed = true ∧ (Instr.drw 0 0 0).wellFormed = true ∧ (Instr.shl 15).wellFormed = true := by
  decide

theorem witness_DecodedIsWellFormedAndReencodes :
    decodeWord 0xDFFF = .ok (.drw 15 15 15) ∧ (decodeWord 0x8126 = .ok (.shr 1) ∧ encode (.shr 1) = 0x8126 &&& 0xFF0F) := by
  decide

theorem witness_DecoderAgreesWithOpcodeTable :
    opcodeTable[0]? = some ⟨"00E0", 0xFFFF, 0x00E0⟩ ∧ opcodeTable[33]? = some ⟨"Fx65", 0xF0FF, 0xF065⟩ := by decide

theorem witness_OpcodeRowsAreDisjoint :
    opcodeTable[33]? = some ⟨"Fx65", 0xF0FF, 0xF065⟩ ∧ (0xFF65 : Word) &&& 0xF0FF = 0xF065 := by decide

theorem witness_UnmatchedWordIsNoOp :
    let s : State := { State.reset with pc := 4094, DT := 1 }
    s.pc.toNat + 1 < 4096 ∧ 0 = wordOfBytes (s.mem.byte s.pc.toNat) (s.mem.byte (s.pc.toNat + 1)) ∧
      ∀ row ∈ opcodeTable, 0 &&& row.mask ≠ row.matchBits := by decide

theorem witness_FetchReadsBigEndianOrFaults :
    ({ State.reset with pc := 4094 } : State).pc.toNat + 1 < 4096 ∧
      4096 ≤ ({ State.reset with pc := 4095 } : State).pc.toNat + 1 ∧
      4096 ≤ ({ State.reset with pc := 0xFFFF } : State).pc.toNat + 1 := by decide

theorem witness_ReadAfterWrite :
    State.reset.mem.wf ∧ 4093 + [1, 2, 3].length ≤ 4096 ∧ (1 ≤ [1, 2, 3].length ∧ 4096 < 4094 + [1, 2, 3].length) := by decide

theorem witness_MemoryIsCanonical :
    let m : Memory := [(0x300, 1)]
    m.wf ∧ (∀ a, m.byte a = m.byte a) := ⟨by decide, fun _ => rfl⟩

/-- `F155` with `I = 0xFFE`, the last two bytes of memory. -/
def storesTwo : State := { regs [(0, 0x60), (1, 0x2A)] with I := 0xFFE }

theorem witness_StoredBytesAreFetched :
    storesTwo.mem.wf ∧ exec (.storeRegs 1) storesTwo = .next (nextOf (exec (.storeRegs 1) storesTwo)) ∧
      (1 : Reg).val = (0 : Reg).val + 1 ∧ (1 : Reg) ≤ 1 ∧ (0xFFE : Word).toNat = storesTwo.I.toNat + (0 : Reg).val :=
  ⟨by decide, nextOf_of_nextHas (by decide), by decide, by decide, by decide⟩

theorem witness_StepRunsDecodedInstruction :
    let s := poke { State.reset with pc := 4094 } 4094 [0x60, 0x01]
    let u := poke { State.reset with pc := 4094 } 4094 [0x00, 0xEE]
    s.pc.toNat + 1 < 4096 ∧ decode [s.mem.byte s.pc.toNat, s.mem.byte (s.pc.toNat + 1)] = .ok (.ldImm 0 1, []) ∧
      exec (.ldImm 0 1) s = .next (nextOf (exec (.ldImm 0 1) s)) ∧
      decode [u.mem.byte u.pc.toNat, u.mem.byte (u.pc.toNat + 1)] = .ok (.ret, []) ∧
      exec .ret u = .fault .stackUnderflow :=
  ⟨by decide, by decide, nextOf_of_nextHas (by decide), by decide, of_faultIs (by decide)⟩

theorem witness_PlacedWordIsRun :
    State.reset.mem.wf ∧ ({ State.reset with pc := 0xFFFF } : State).mem.wf ∧
      decodeTableWord 16 0x6005 = some (.ldImm 0 5) := by decide

theorem witness_RandomByteReadOnlyByRnd :
    (∀ x kk, ¬(placed 0x1200).executes (.rnd x kk)) ∧ step (placed 0x1200) = .next (nextOf (step (placed 0x1200))) ∧
      (∀ x kk, ¬(placed 0x00EE).executes (.rnd x kk)) ∧ step (placed 0x00EE) = .fault .stackUnderflow :=
  ⟨fun _ _ => not_executes (w := 0x1200) (j := .jp 0x200) (by rfl) (by decide) (by simp),
    nextOf_of_nextHas (by decide),
    fun _ _ => not_executes (w := 0x00EE) (j := .ret) (by rfl) (by decide) (by simp), of_faultIs (by decide)⟩

theorem witness_KeysReadOnlyByKeyInstructions :
    (∀ x, ¬(placed 0x1200).executes (.skp x) ∧ ¬(placed 0x1200).executes (.sknp x) ∧ ¬(placed 0x1200).executes (.ldVK x)) ∧
      step (placed 0x1200) = .next (nextOf (step (placed 0x1200))) ∧
      (∀ x, ¬(placed 0x00EE).executes (.skp x) ∧ ¬(placed 0x00EE).executes (.sknp x) ∧ ¬(placed 0x00EE).executes (.ldVK x)) ∧
      step (placed 0x00EE) = .fault .stackUnderflow :=
  have jumps {i : Instr} (h : i ≠ .jp 0x200) : ¬(placed 0x1200).executes i :=
    not_executes (w := 0x1200) (j := .jp 0x200) (by rfl) (by decide) h
  have returns {i : Instr} (h : i ≠ .ret) : ¬(placed 0x00EE).executes i :=
    not_executes (w := 0x00EE) (j := .ret) (by rfl) (by decide) h
  ⟨fun _ => ⟨jumps (by simp), jumps (by simp), jumps (by simp)⟩, nextOf_of_nextHas (by decide),
    fun _ => ⟨returns (by simp), returns (by simp), returns (by simp)⟩, of_faultIs (by decide)⟩

theorem witness_ImmediateSkips : (regs [(15, 5)]).readV 15 = 5 ∧ (regs [(15, 5)]).readV 15 ≠ 4 := by decide

theorem witness_RegisterSkips : (15 : BitVec 4) ≠ 0 ∧
    (regs [(1, 7), (2, 7)]).readV 1 = (regs [(1, 7), (2, 7)]).readV 2 ∧
      (regs [(1, 7), (2, 8)]).readV 1 ≠ (regs [(1, 7), (2, 8)]).readV 2 := by decide

theorem witness_CallPushesOrOverflows :
    ({ State.reset with sp := 15 } : State).sp.val < 16 ∧ ({ State.reset with sp := 16 } : State).sp.val = 16 := by decide

theorem witness_ReturnPopsOrUnderflows :
    ({ State.reset with sp := 1 } : State).sp.val = (0 : Fin 16).val + 1 ∧
      ({ State.reset with sp := 16 } : State).sp.val = (15 : Fin 16).val + 1 ∧ State.reset.sp.val = 0 := by decide

/-- `2FFE` at 0x200 with fifteen addresses stacked, and `00EE` in the last two bytes of memory. -/
def callsTheEnd : State := poke { placed 0x2FFE with sp := 15 } 0xFFE [0x00, 0xEE]

theorem witness_CallThenReturnRestoresPc :
    callsTheEnd.sp.val < 16 ∧ callsTheEnd.executes (.call 0xFFE) ∧ (0xFFE : BitVec 12).toNat + 1 < 4096 ∧
      callsTheEnd.mem.byte (0xFFE : BitVec 12).toNat = 0x00 ∧ callsTheEnd.mem.byte ((0xFFE : BitVec 12).toNat + 1) = 0xEE :=
  ⟨by decide, ⟨0x2FFE, by rfl, by decide⟩, by decide, by decide, by decide⟩

theorem witness_x_is_not_the_flag_register :  -- AddWithCarry, SubtractWithNotBorrow, ShiftsByOne
    (0 : Reg) ≠ regF ∧ (14 : Reg) ≠ regF := by decide

theorem witness_StoreDecimalDigits :
    State.reset.mem.wf ∧ ({ State.reset with I := 4093 } : State).I.toNat + 2 < 4096 ∧
      4096 ≤ ({ State.reset with I := 4094 } : State).I.toNat + 2 := by decide

theorem witness_StoreRegisterGroup_LoadRegisterGroup :
    State.reset.mem.wf ∧ ({ State.reset with I := 0xFF0 } : State).I.toNat + (15 : Reg).val < 4096 ∧
      4096 ≤ ({ State.reset with I := 0xFF1 } : State).I.toNat + (15 : Reg).val ∧
      ({ State.reset with I := 0xFFF } : State).I.toNat + (0 : Reg).val < 4096 ∧
      (0 : Reg) ≤ 0 ∧ (15 : Reg) ≤ 15 ∧ (14 : Reg) < 15 := by decide

theorem witness_StoreThenLoadRestoresRegisters :
    let t := nextOf (exec (.storeRegs 1) storesTwo)
    let u := set t [(0, 9), (1, 9)]
    storesTwo.mem.wf ∧ exec (.storeRegs 1) storesTwo = .next t ∧ u.mem = t.mem ∧ u.I = storesTwo.I ∧
      exec (.loadRegs 1) u = .next (nextOf (exec (.loadRegs 1) u)) ∧ (1 : Reg) ≤ 1 :=
  ⟨by decide, nextOf_of_nextHas (by decide), rfl, by decide, nextOf_of_nextHas (by decide), by decide⟩

/-- A one-row sprite `80` at the last byte of memory, at pixel 0, which is on. -/
def spriteAtTheEnd : State := light (poke { State.reset with I := 0xFFF } 0xFFF [0x80]) [0]

theorem spriteAtTheEnd_covers : Covers spriteAtTheEnd 0 1 1 0 := ⟨0, 0, by decide, by decide, by decide, by decide⟩

/-- No pixel is covered by a sprite of no row. -/
theorem not_covers_no_row (s : State) (x y : Reg) (d : Nat) : ¬Covers s x y 0 d := by
  rintro ⟨r, c, h, _⟩
  omega

theorem witness_DrawFinalState :
    ((1 : Nat) < 16 ∧ spriteAtTheEnd.I.toNat + 1 ≤ 4096 ∧ Covers spriteAtTheEnd 0 1 1 0 ∧ pixel spriteAtTheEnd.fb 0 = true) ∧
      ((15 : Nat) < 16 ∧ ({ State.reset with I := 4081 } : State).I.toNat + 15 ≤ 4096) ∧
      ¬∃ d, Covers { State.reset with I := 0xFFFF } 0 1 0 d ∧ pixel State.reset.fb d = true :=
  ⟨⟨by decide, by decide, spriteAtTheEnd_covers, by decide⟩, by decide,
    fun ⟨d, h, _⟩ => not_covers_no_row _ 0 1 d h⟩

theorem witness_DrawOutOfRangeFaults :
    (1 ≤ 1 ∧ 4096 < ({ State.reset with I := 4096 } : State).I.toNat + 1) ∧
      (1 ≤ 15 ∧ 4096 < ({ State.reset with I := 4082 } : State).I.toNat + 15) := by decide

theorem witness_DrawTwiceRestores :
    let s := poke { State.reset with I := 0xFFF } 0xFFF [0x80]
    let t := nextOf (exec (.drw 0 14 1) s)
    let e := nextOf (exec (.drw 0 14 0) s)
    ((1 : Nat) < 16 ∧ (0 : Reg) ≠ regF ∧ (14 : Reg) ≠ regF ∧ exec (.drw 0 14 1) s = .next t ∧
      exec (.drw 0 14 1) t = .next (nextOf (exec (.drw 0 14 1) t)) ∧ (∃ d, Covers s 0 14 1 d ∧ pixel s.fb d = false)) ∧
      exec (.drw 0 14 0) s = .next e ∧ exec (.drw 0 14 0) e = .next (nextOf (exec (.drw 0 14 0) e)) ∧
      ¬∃ d, Covers s 0 14 0 d ∧ pixel s.fb d = false :=
  ⟨⟨by decide, by decide, by decide, nextOf_of_nextHas (by decide), nextOf_of_nextHas (by decide),
      0, ⟨0, 0, by decide, by decide, by decide, by decide⟩, by decide⟩,
    nextOf_of_nextHas (by decide), nextOf_of_nextHas (by decide), fun ⟨d, h, _⟩ => not_covers_no_row _ 0 14 d h⟩

theorem witness_TimerInstructions :
    exec (.ldVDT 0) { State.reset with ST := 4 } = .next (nextOf (exec (.ldVDT 0) { State.reset with ST := 4 })) :=
  nextOf_of_nextHas (by decide)

theorem witness_RandomMasked : (7 : Nat) < 8 ∧ (0x0F : Byte).getLsbD 7 = false := by decide

theorem witness_KeySkips :
    ((regs [(0, 15)]).readV 0).toNat = (15 : Fin 16).val ∧ ((regs [(0, 0)]).readV 0).toNat = (0 : Fin 16).val ∧
      16 ≤ ((regs [(0, 16)]).readV 0).toNat ∧ 16 ≤ ((regs [(0, 255)]).readV 0).toNat := by decide

theorem witness_WaitForKey :
    (∀ k : Fin 16, State.reset.key[k.val] = false) ∧
      ((State.reset.keyDown 15).key[15] = true ∧ ∀ j : Fin 16, j < 15 → (State.reset.keyDown 15).key[j.val] = false) ∧
      ((State.reset.keyDown 0).key[0] = true ∧ ∀ j : Fin 16, j < 0 → (State.reset.keyDown 0).key[j.val] = false) := by decide

/-- `BFFF` at 0x200 with `V[0] = FF` and all sixteen return addresses at 4094, the bounds of the invariant. -/
def atTheBounds : State :=
  { set (placed 0xBFFF) [(0, 0xFF)] with stack := Vector.replicate 16 4094, sp := 16 }

theorem witness_StepKeepsInvariant_PcNeverWraps :
    atTheBounds.inv ∧ step atTheBounds = .next (nextOf (step atTheBounds)) ∧ (nextOf (step atTheBounds)).pc = 0x10FE :=
  ⟨by unfold State.inv; decide, nextOf_of_nextHas (by decide), by decide⟩

/-- A font that is not the default. -/
def otherFont : Config.Font := Vector.replicate 80 0xAA

theorem witness_ReachableStatesMeetInvariant :
    atTheBounds.inv ∧ (State.resetWith otherFont).reachable ∧
      (performAll otherFont [.loadProgram [0x1F, 0xFF], .step, .step, .keyDown 7] (State.resetWith otherFont)).reachable :=
  ⟨by unfold State.inv; decide, ⟨otherFont, [], rfl⟩, ⟨otherFont, _, rfl⟩⟩

theorem witness_StackPointerOnlyByCallAndReturn :
    exec (.call 0x300) State.reset = .next (nextOf (exec (.call 0x300) State.reset)) := nextOf_of_nextHas (by decide)

theorem witness_WritersOfEachElement :
    let after (i : Instr) (s : State) := nextOf (exec i s)
    (exec (.ldI 1) State.reset = .next (after (.ldI 1) State.reset) ∧ (after (.ldI 1) State.reset).I ≠ State.reset.I) ∧
      (exec (.storeRegs 1) storesTwo = .next (after (.storeRegs 1) storesTwo) ∧
        (after (.storeRegs 1) storesTwo).mem ≠ storesTwo.mem) ∧
      (exec .cls spriteAtTheEnd = .next (after .cls spriteAtTheEnd) ∧ (after .cls spriteAtTheEnd).fb ≠ spriteAtTheEnd.fb) ∧
      (exec (.ldDTV 0) storesTwo = .next (after (.ldDTV 0) storesTwo) ∧ (after (.ldDTV 0) storesTwo).DT ≠ storesTwo.DT) ∧
      (exec (.ldSTV 0) storesTwo = .next (after (.ldSTV 0) storesTwo) ∧ (after (.ldSTV 0) storesTwo).ST ≠ storesTwo.ST) :=
  ⟨⟨nextOf_of_nextHas (by decide), by decide⟩, ⟨nextOf_of_nextHas (by decide), by decide⟩,
    ⟨nextOf_of_nextHas (by decide), by decide⟩, ⟨nextOf_of_nextHas (by decide), by decide⟩,
    nextOf_of_nextHas (by decide), by decide⟩

theorem witness_WritersOfEachRegister :
    let t := nextOf (exec (.addReg 0 0) (regs [(0, 0x90)]))
    exec (.addReg 0 0) (regs [(0, 0x90)]) = .next t ∧ t.readV regF ≠ (regs [(0, 0x90)]).readV regF :=
  ⟨nextOf_of_nextHas (by decide), by decide⟩

theorem witness_ResetValues : 80 ≤ 80 ∧ 80 < 4096 ∧ 4095 < 4096 ∧ 2047 < 2048 := by decide

theorem test_reset_with_another_font :
    (State.resetWith otherFont).mem.byte 79 = 0xAA ∧ (State.resetWith otherFont).mem.byte 80 = 0 := by decide

theorem test_default_glyph_A :  -- 10_state.md R21
    State.reset.mem.bytes 0x32 5 = [0xF0, 0x90, 0xF0, 0x90, 0x90] := by decide

theorem witness_FaultsExactlyAsTabulated :
    tableFault (.call 0) { State.reset with sp := 16 } = some .stackOverflow ∧
      tableFault .ret State.reset = some .stackUnderflow ∧
      tableFault (.skp 0) (regs [(0, 16)]) = some (.keyIndexOutOfRange 16) ∧
      tableFault (.sknp 0) (regs [(0, 16)]) = some (.keyIndexOutOfRange 16) ∧
      tableFault (.drw 0 0 2) { State.reset with I := 4095 } = some (.addressOutOfRange .load 4096) ∧
      tableFault (.ldB 0) { State.reset with I := 4094 } = some (.addressOutOfRange .store 4096) ∧
      tableFault (.storeRegs 1) { State.reset with I := 4095 } = some (.addressOutOfRange .store 4096) ∧
      tableFault (.loadRegs 1) { State.reset with I := 4095 } = some (.addressOutOfRange .load 4096) ∧
      tableFault (.drw 0 0 1) { State.reset with I := 4095 } = none ∧ tableFault .cls State.reset = none := by decide

theorem witness_FaultLeavesStateAndRepeats : step (placed 0x00EE) = .fault .stackUnderflow := of_faultIs (by decide)

theorem witness_FaultConditionsDependOnFiveElements :
    let s := placed 0x00EE
    let t := { s.keyDown 3 with DT := 9 }
    t.pc = s.pc ∧ t.mem = s.mem ∧ t.I = s.I ∧ t.sp = s.sp ∧ t.V = s.V ∧ t ≠ s ∧ step s = .fault .stackUnderflow :=
  ⟨rfl, rfl, rfl, rfl, rfl, by decide, of_faultIs (by decide)⟩

/-- `1200` at 0x200, a jump to itself, with both timers running. -/
def spinning : State := { placed 0x1200 with DT := 1, ST := 0xFF }

theorem spinning_avoids (P : Instr → Prop) (h : ¬P (.jp 0x200)) : ∀ i, spinning.executes i → ¬P i := by
  rintro i ⟨w, hw, hi⟩ hP
  have e : spinning.fetch = .ok 0x1200 := by rfl
  rw [e] at hw
  cases hw
  have d : decodeWord 0x1200 = .ok (.jp 0x200) := by decide
  rw [d] at hi
  cases hi
  exact h hP

theorem witness_TimersDecay :
    RunsAvoiding (fun i => ∃ x, i = .ldDTV x) 1 spinning (nextOf (step spinning)) ∧
      RunsAvoiding (fun i => ∃ x, i = .ldSTV x) 1 spinning (nextOf (step spinning)) :=
  ⟨⟨_, nextOf_of_nextHas (by decide), spinning_avoids _ (by simp), rfl⟩,
    ⟨_, nextOf_of_nextHas (by decide), spinning_avoids _ (by simp), rfl⟩⟩

theorem witness_LoadProgram :
    State.reset.mem.wf ∧ (List.replicate 0 (0 : Byte)).length = 0 ∧ 3584 < (List.replicate 3585 (0 : Byte)).length ∧
      (0 < (List.replicate 1 (0 : Byte)).length ∧ (List.replicate 1 (0 : Byte)).length ≤ 3584) ∧
      (0 < (List.replicate 3584 (0 : Byte)).length ∧ (List.replicate 3584 (0 : Byte)).length ≤ 3584) := by
  refine ⟨by decide, ?_⟩
  simp only [List.length_replicate]
  decide

theorem witness_KeyEvents :
    16 ≤ 16 ∧ State.reset.keyDown 15 = (perform otherFont (.keyDown 15) State.reset).1 := ⟨by decide, rfl⟩

theorem witness_JumpToSelfIsFixedPoint :
    spinning.spinsInPlace ∧ (placed 0x1200).spinsInPlace ∧ (placed 0x1200).DT = 0 ∧ (placed 0x1200).ST = 0 :=
  ⟨⟨0x200, ⟨0x1200, by rfl, by decide⟩, by decide⟩, ⟨0x200, ⟨0x1200, by rfl, by decide⟩, by decide⟩, rfl, rfl⟩

/-- `F015`, `F107` at 0x200 with `V[0] = 3`. -/
def setsTimer : State := poke (regs [(0, 3)]) 0x200 [0xF0, 0x15, 0xF1, 0x07]

theorem witness_DelayTimerOffByOne :
    1 ≤ 1 ∧ setsTimer.executes (.ldDTV 0) ∧ CompletesTo setsTimer (nextOf (step setsTimer)) ∧
      RunsAvoiding (fun i => ∃ z, i = .ldDTV z) (1 - 1) (nextOf (step setsTimer)) (nextOf (step setsTimer)) ∧
      (nextOf (step setsTimer)).executes (.ldVDT 1) :=
  ⟨by decide, ⟨0xF015, by rfl, by decide⟩, nextOf_of_nextHas (by decide), rfl, ⟨0xF107, by rfl, by decide⟩⟩

end Sys2Proof.Machine.Tests
end

section
/-! PROOFS. `Cxkk`: the drawn byte under its mask, and the frame of the draw (44_random_keys_timers.md R121). -/

namespace Sys2Proof.Machine

/-- The meaning of `Cxkk`: the drawn byte is masked into `V[x]`, counted as taken, and `pc` advances (R121; log 1). -/
theorem exec_rnd (s : State) (x : Reg) (kk : Byte) :
    exec (.rnd x kk) s = .next { s.drawRandom (Config.rand8 s.draws) x kk with draws := s.draws + 1 }.advance := rfl

/-- Neither the count of the bytes drawn nor `pc` is a register: after the draw the registers read as after the masked write
to `V[x]`. -/
theorem State.readV_drawRandom_advance (s : State) (r : Byte) (x : Reg) (kk : Byte) (n : Nat) (y : Reg) :
    { s.drawRandom r x kk with draws := n }.advance.readV y = if y = x then r &&& kk else s.readV y :=
  State.readV_writeV s x y (r &&& kk)

/-- A masked draw, counted, changes `V[x]`, `pc` and the count of draws, and nothing else. -/
theorem frame_drawRandom_advance (s : State) (r : Byte) (x : Reg) (kk : Byte) (n : Nat) :
    Frame.holds { regs := [x], randomDraws := true } s { s.drawRandom r x kk with draws := n }.advance := by
  have other_regs : ∀ y, y ∉ [x] → { s.drawRandom r x kk with draws := n }.advance.readV y = s.readV y := by
    intro y hy
    rw [State.readV_drawRandom_advance, if_neg (List.ne_of_not_mem_cons hy)]
  exact ⟨other_regs, by simp⟩

/-- Where the mask has a 0, the masked byte has a 0 (R121). -/
theorem getLsbD_and_of_mask_false (r : Byte) {kk : Byte} {b : Nat} (h : kk.getLsbD b = false) :
    (r &&& kk).getLsbD b = false := by
  rw [BitVec.getLsbD_and, h, Bool.and_false]

/-- Settles O40: what `V[x]` reads after the draw, then the bits that the mask clears, then the frame of the draw. -/
theorem randomMasked : Obligations.RandomMasked := by
  intro s x kk
  have masked : { s.drawRandom (Config.rand8 s.draws) x kk with draws := s.draws + 1 }.advance.readV x =
      Config.rand8 s.draws &&& kk := by
    rw [State.readV_drawRandom_advance, if_pos rfl]
  refine ⟨_, exec_rnd s x kk, masked, fun b _ hb => ?_, rfl, rfl, frame_drawRandom_advance ..⟩
  rw [masked]
  exact getLsbD_and_of_mask_false _ hb

end Sys2Proof.Machine
end

section
/-! PROOFS. The canonical form of memory and the state after reset (10_state.md R19, R27). -/

namespace Sys2Proof.Machine

/-- In the canonical form the listed cells are exactly the bytes that differ from their reset contents. -/
theorem Memory.mem_iff_of_wf {m : Memory} (hm : m.wf) (p : Host.Cell) :
    p ∈ m ↔ m.byte p.1 = p.2 ∧ p.2 ≠ unlisted p.1 := by
  refine ⟨fun hp => ⟨Memory.byte_of_mem hm hp, (hm.2 p hp).2⟩, fun ⟨hbyte, hne⟩ => ?_⟩
  obtain ⟨q, hq, haddr⟩ : ∃ q ∈ m, q.1 = p.1 := by
    by_contra hnone
    exact hne (hbyte.symm.trans (Memory.byte_of_not_mem fun q hq e => hnone ⟨q, hq, e⟩))
  have hval : q.2 = p.2 := by rw [← Memory.byte_of_mem hm hq, haddr, hbyte]
  rwa [← Prod.ext haddr hval]

/-- A memory in canonical form lists no cell twice. -/
theorem Memory.nodup_of_wf {m : Memory} (hm : m.wf) : m.Nodup :=
  hm.1.imp fun hlt e => by simp [e] at hlt

/-- Settles O11: equal bytes give the same cells, and strictly rising addresses give them one order. -/
theorem memoryIsCanonical : Obligations.MemoryIsCanonical := by
  intro m n hm hn hbytes
  have same_cells : ∀ p, p ∈ m ↔ p ∈ n := fun p => by
    rw [Memory.mem_iff_of_wf hm, Memory.mem_iff_of_wf hn, hbytes]
  have perm : m.Perm n := (List.perm_ext_iff_of_nodup (Memory.nodup_of_wf hm) (Memory.nodup_of_wf hn)).2 same_cells
  exact perm.eq_of_pairwise (fun p q _ _ hpq hqp => absurd hpq (Nat.lt_asymm hqp)) hm.1 hn.1

/-- Reset meets the invariant: no return address is stacked, so nothing is asked of the stack. -/
theorem State.inv_resetWith (F : Config.Font) : (State.resetWith F).inv :=
  ⟨State.wf_resetWith F, (by decide : (0x200 : Word).toNat ≤ 0x10FE), fun _ hi => absurd hi (Nat.not_lt_zero _)⟩

/-- Settles O44: the default state is reset at the default font. -/
theorem invariantAtReset : Obligations.InvariantAtReset :=
  ⟨State.resetWith_defaultFont ▸ State.inv_resetWith defaultFont, State.inv_resetWith⟩

/-- Settles O51: memory by the law of reset with a font, and every other element is filled with its value. -/
theorem resetValues : Obligations.ResetValues := by
  refine ⟨State.resetWith_defaultFont, fun F s => ?_⟩
  have font : ∀ a : Fin 80, (State.resetWith F).mem.byte a.val = F[a.val] := fun a => by
    simp [State.byte_resetWith]
  have zeros : ∀ a, 80 ≤ a → a < 4096 → (State.resetWith F).mem.byte a = 0 := fun a ha _ => by
    rw [State.byte_resetWith, List.getD_eq_default _ _ (by simpa using ha)]
  exact ⟨fun r => Vector.getElem_replicate r.isLt, rfl, rfl, fun k => Vector.getElem_replicate k.isLt, rfl, font, zeros,
    fun d _ => pixel_clearedFb d, rfl, rfl, fun k => Vector.getElem_replicate k.isLt⟩

end Sys2Proof.Machine
end

section
/-! PROOFS. What an instruction that completes can do to the state, said once for all 34 of them, and from it who writes
which element (10_state.md R11 to R13, R17, R18, R22 to R24). -/

namespace Sys2Proof.Machine

/-- The ways in which an instruction `i` that completes takes `s` to `t`. The values written to `V`, `I`,
`mem`, `fb` and the count of draws, and the condition of a skip, are left open; what is kept, and where `pc`, `sp` and the
stack go, is exact. -/
inductive ExecEffect (s : State) : Instr → State → Prop where
  | ret (k : Fin 16) (hk : s.sp.val = k.val + 1) :
      ExecEffect s .ret ({ s with sp := k.castSucc }.jump (s.stack[k.val] + 2))
  | jump (nnn : BitVec 12) : ExecEffect s (.jp nnn) (s.jump (zextAddr nnn))
  | call (nnn : BitVec 12) (k : Fin 16) (hk : s.sp.val = k.val) :
      ExecEffect s (.call nnn) ({ s with stack := s.stack.set k.val s.pc, sp := k.succ }.jump (zextAddr nnn))
  | jumpV0 (nnn : BitVec 12) : ExecEffect s (.jpV0 nnn) (s.jump (zextAddr nnn + zextByte (s.readV reg0)))
  | skip {i : Instr} (c : Bool) : ExecEffect s i (s.skipIf c)
  | wait (x : Reg) (hkeys : s.lowestKeyDown = none) : ExecEffect s (.ldVK x) s
  | registers {i : Instr} (V : Vector Byte 16) (draws : Nat) (kept : ∀ r, ¬MayWriteV r i → V[r.val] = s.readV r) :
      ExecEffect s i { s with V := V, draws := draws }.advance
  | index {i : Instr} (I : Word) (hi : (∃ nnn, i = .ldI nnn) ∨ ∃ x, i = .addI x ∨ i = .ldF x) :
      ExecEffect s i { s with I := I }.advance
  | store {i : Instr} (mem : Memory) (hi : ∃ x, i = .ldB x ∨ i = .storeRegs x) (hwf : s.mem.wf → mem.wf) :
      ExecEffect s i { s with mem := mem }.advance
  | clear : ExecEffect s .cls { s with fb := clearedFb }.advance
  | draw (x y : Reg) (n : Nat) (fb : Framebuffer) (flag : Byte) :
      ExecEffect s (.drw x y n) ({ s with fb := fb }.writeV regF flag).advance
  | delayTimer (x : Reg) : ExecEffect s (.ldDTV x) { s with DT := s.readV x }.advance
  | soundTimer (x : Reg) : ExecEffect s (.ldSTV x) { s with ST := s.readV x }.advance

/-! ## Every instruction that completes has one of these effects -/

section

variable {s t : State} {i : Instr}

/-- A meaning that is a next state outright has the effect of that state. -/
theorem ExecEffect.of_next {u : State} (e : ExecEffect s i u)
    (h : (.next u : Host.Outcome State Fault Refusal) = .next t) : ExecEffect s i t :=
  Host.Outcome.next.inj h ▸ e

theorem ne_of_not_mayWriteV {r x : Reg} (hx : MayWriteV x i) (hr : ¬MayWriteV r i) : r ≠ x :=
  fun e => hr (e ▸ hx)

theorem ExecEffect.writeV {x : Reg} {v : Byte} (hx : MayWriteV x i) : ExecEffect s i (s.writeV x v).advance :=
  .registers _ s.draws fun _ hr => s.readV_writeV_of_ne v (ne_of_not_mayWriteV hx hr)

theorem ExecEffect.writeResultThenFlag {x : Reg} {v : Byte} {c : Bool} (hx : MayWriteV x i) (hF : MayWriteV regF i) :
    ExecEffect s i (s.writeResultThenFlag x v c).advance :=
  .registers _ s.draws fun r hr => (s.readV_writeResultThenFlag x r v c).trans <| by
    rw [if_neg (ne_of_not_mayWriteV hF hr), if_neg (ne_of_not_mayWriteV hx hr)]

theorem ExecEffect.writeFlagThenResult {x : Reg} {v : Byte} {c : Bool} (hx : MayWriteV x i) (hF : MayWriteV regF i) :
    ExecEffect s i (s.writeFlagThenResult x v c).advance :=
  .registers _ s.draws fun r hr => (s.readV_writeFlagThenResult x r v c).trans <| by
    rw [if_neg (ne_of_not_mayWriteV hx hr), if_neg (ne_of_not_mayWriteV hF hr)]

theorem ExecEffect.writeGroup (x : Reg) (m : Memory) (a : Nat) :
    ExecEffect s (.loadRegs x) (s.writeGroup (m.bytes a (x.val + 1))).advance :=
  .registers _ s.draws fun r hr => (s.readV_writeGroup _ r).trans <| by
    rw [Memory.getD_bytes, if_neg fun hlt => hr (Nat.le_of_lt_succ hlt)]

/-- A checked store that goes through and then advances. -/
theorem ExecEffect.of_memWrite (hi : ∃ x, i = .ldB x ∨ i = .storeRegs x) {a : Nat} {v : List Byte}
    (h : attempt (s.memWrite a v) (fun u => .next u.advance) = .next t) : ExecEffect s i t := by
  obtain ⟨u, hu, ht⟩ := attempt_next h
  rcases memWrite_cases s a v with ⟨-, ok⟩ | ⟨-, -, error⟩
  · cases ok.symm.trans hu
    exact .of_next (.store _ hi fun hm => memWrite_wf hm ok) ht
  · cases error.symm.trans hu

theorem ExecEffect.of_execRet (h : execRet s = .next t) : ExecEffect s .ret t := by
  obtain ⟨p, hp, ht⟩ := attempt_next h
  rcases Nat.eq_zero_or_pos s.sp.val with h0 | hpos
  · cases (pop_error h0).symm.trans hp
  · cases (pop_ok hpos).symm.trans hp
    exact .of_next (.ret ⟨s.sp.val - 1, by omega⟩ (Nat.sub_add_cancel hpos).symm) ht

theorem ExecEffect.of_execCall {nnn : BitVec 12} (h : execCall nnn s = .next t) : ExecEffect s (.call nnn) t := by
  obtain ⟨u, hu, ht⟩ := attempt_next h
  rcases Nat.lt_or_ge s.sp.val 16 with hlt | hge
  · cases (push_ok hlt).symm.trans hu
    exact .of_next (.call nnn ⟨s.sp.val, hlt⟩ rfl) ht
  · cases (push_error (by omega)).symm.trans hu

theorem ExecEffect.of_execDrw {x y : Reg} {n : Nat} (h : execDrw x y n s = .next t) : ExecEffect s (.drw x y n) t := by
  obtain ⟨_, -, ht⟩ := attempt_next h
  exact .of_next (.draw x y n _ _) ht

theorem ExecEffect.of_execLoadRegs {x : Reg} (h : execLoadRegs x s = .next t) : ExecEffect s (.loadRegs x) t := by
  obtain ⟨m, hm, ht⟩ := attempt_next h
  rcases memRead_cases s .load s.base (x.val + 1) with ⟨-, ok⟩ | ⟨-, -, error⟩
  · cases ok.symm.trans hm
    exact .of_next (.writeGroup x s.mem s.base) ht
  · cases error.symm.trans hm

theorem ExecEffect.of_execLdVK {x : Reg} (h : execLdVK x s = .next t) : ExecEffect s (.ldVK x) t := by
  unfold execLdVK at h
  split at h
  · next hkeys => exact .of_next (.wait x hkeys) h
  · exact .of_next (.writeV rfl) h

/-- What an instruction that completes can do. -/
theorem exec_effect (h : exec i s = .next t) : ExecEffect s i t := by
  cases i with
  | cls => exact .of_next .clear h
  | ret => exact .of_execRet h
  | jp nnn => exact .of_next (.jump nnn) h
  | call nnn => exact .of_execCall h
  | seImm x kk => exact .of_next (.skip _) h
  | sneImm x kk => exact .of_next (.skip _) h
  | seReg x y => exact .of_next (.skip _) h
  | ldImm x kk => exact .of_next (.writeV rfl) h
  | addImm x kk => exact .of_next (.writeV rfl) h
  | ldReg x y => exact .of_next (.writeV rfl) h
  | orReg x y => exact .of_next (.writeV rfl) h
  | andReg x y => exact .of_next (.writeV rfl) h
  | xorReg x y => exact .of_next (.writeV rfl) h
  | addReg x y => exact .of_next (.writeResultThenFlag (.inl rfl) (.inr rfl)) h
  | subReg x y => exact .of_next (.writeResultThenFlag (.inl rfl) (.inr rfl)) h
  | shr x => exact .of_next (.writeFlagThenResult (.inl rfl) (.inr rfl)) h
  | subnReg x y => exact .of_next (.writeResultThenFlag (.inl rfl) (.inr rfl)) h
  | shl x => exact .of_next (.writeFlagThenResult (.inl rfl) (.inr rfl)) h
  | sneReg x y => exact .of_next (.skip _) h
  | ldI nnn => exact .of_next (.index _ (.inl ⟨nnn, rfl⟩)) h
  | jpV0 nnn => exact .of_next (.jumpV0 nnn) h
  | rnd x kk => exact .of_next (.registers _ _ fun _ hr => s.readV_writeV_of_ne _ hr) h
  | drw x y n => exact .of_execDrw h
  | skp x => obtain ⟨_, -, ht⟩ := attempt_next h; exact .of_next (.skip _) ht
  | sknp x => obtain ⟨_, -, ht⟩ := attempt_next h; exact .of_next (.skip _) ht
  | ldVDT x => exact .of_next (.writeV rfl) h
  | ldVK x => exact .of_execLdVK h
  | ldDTV x => exact .of_next (.delayTimer x) h
  | ldSTV x => exact .of_next (.soundTimer x) h
  | addI x => exact .of_next (.index _ (.inr ⟨x, .inl rfl⟩)) h
  | ldF x => exact .of_next (.index _ (.inr ⟨x, .inr rfl⟩)) h
  | ldB x => exact .of_memWrite ⟨x, .inl rfl⟩ h
  | storeRegs x => exact .of_memWrite ⟨x, .inr rfl⟩ h
  | loadRegs x => exact .of_execLoadRegs h

end

/-! ## Who writes which element -/

/-- Settles O48: the call and the return by their effects; every other effect keeps `sp` and the stack. -/
theorem stackPointerOnlyByCallAndReturn : Obligations.StackPointerOnlyByCallAndReturn := by
  intro i s t h
  cases exec_effect h with
  | call nnn k hk => exact .inl ⟨nnn, rfl, by simp [hk]⟩
  | ret k hk => exact .inr (.inl ⟨rfl, hk.symm, rfl⟩)
  | _ => exact .inr (.inr ⟨rfl, rfl⟩)

/-- Settles O49: for each element, the effects that write it name its instructions, and every other effect keeps it. -/
theorem writersOfEachElement : Obligations.WritersOfEachElement := by
  intro i s t h
  have effect := exec_effect h
  refine ⟨fun hI => ?_, fun hmem => ?_, fun hfb => ?_, fun hDT => ?_, fun hST => ?_, ?_⟩
  · cases effect with
    | index _ hi => exact hi
    | _ => exact absurd rfl hI
  · cases effect with
    | store _ hi => exact hi
    | _ => exact absurd rfl hmem
  · cases effect with
    | clear => exact .inl rfl
    | draw x y n => exact .inr ⟨x, y, n, rfl⟩
    | _ => exact absurd rfl hfb
  · cases effect with
    | delayTimer x => exact ⟨x, rfl⟩
    | _ => exact absurd rfl hDT
  · cases effect with
    | soundTimer x => exact ⟨x, rfl⟩
    | _ => exact absurd rfl hST
  · cases effect <;> rfl

/-- Settles O50: a register that the instruction may not write is kept by the effects that write registers, and every other
effect keeps all of them. -/
theorem writersOfEachRegister : Obligations.WritersOfEachRegister := by
  intro i s t r h hchanged
  by_contra hr
  cases exec_effect h with
  | registers V draws kept => exact hchanged (kept r hr)
  | draw x y n fb flag => exact hchanged (State.readV_writeV_of_ne _ flag hr)
  | _ => exact hchanged rfl

end Sys2Proof.Machine
end

section
/-! PROOFS. The invariant: what a cycle does to `pc`, and that every cycle and every host operation keeps the invariant
(10_state.md R14, R15; 45_host_operations.md R130, R139). -/

namespace Sys2Proof.Machine

/-- What a cycle that completes can do: its fetch succeeded, so `pc` was at most 4094, and then the effect of an instruction
or the advance over an unmatched word, and the tick. -/
theorem step_effect {s t : State} (h : step s = .next t) : s.pc.toNat ≤ 4094 ∧ ∃ u, t = u.tick ∧
    ((∃ i, s.executes i ∧ ExecEffect s i u) ∨ u = s.advance) := by
  obtain ⟨w, u, hw, ht, hrun⟩ := step_eq_next h
  have hpc : s.pc.toNat ≤ 4094 := by
    rcases fetch_cases s with ⟨hpc, -⟩ | ⟨-, error⟩
    · exact hpc
    · cases error.symm.trans hw
  refine ⟨hpc, u, ht, ?_⟩
  rcases hrun with ⟨i, hi, hu⟩ | ⟨-, hu⟩
  · exact .inl ⟨i, ⟨w, hw, hi⟩, exec_effect hu⟩
  · exact .inr hu

/-! ## The program counter -/

/-- A fetch address plus the length of one or two instructions does not wrap. -/
theorem toNat_add_of_fetchable {w k : Word} (hw : w.toNat ≤ 4094) (hk : k.toNat ≤ 4) :
    (w + k).toNat = w.toNat + k.toNat :=
  BitVec.toNat_add_of_lt (by omega)

theorem State.toNat_advance_pc {s : State} (h : s.pc.toNat ≤ 4094) : s.advance.pc.toNat = s.pc.toNat + 2 :=
  toNat_add_of_fetchable h (by decide)

theorem State.toNat_skipIf_pc {s : State} (h : s.pc.toNat ≤ 4094) (c : Bool) :
    (s.skipIf c).pc.toNat = s.pc.toNat + 2 ∨ (s.skipIf c).pc.toNat = s.pc.toNat + 4 := by
  cases c with
  | false => exact .inl (toNat_add_of_fetchable h (by decide))
  | true => exact .inr (toNat_add_of_fetchable h (by decide))

theorem toNat_zextAddr (nnn : BitVec 12) : (zextAddr nnn).toNat = nnn.toNat :=
  BitVec.toNat_setWidth_of_le (by decide)

theorem toNat_zextAddr_add_zextByte (nnn : BitVec 12) (v : Byte) :
    (zextAddr nnn + zextByte v).toNat = nnn.toNat + v.toNat := by
  have hv : (zextByte v).toNat = v.toNat := BitVec.toNat_setWidth_of_le (by decide)
  have hnnn := toNat_zextAddr nnn
  rw [BitVec.toNat_add_of_lt (by omega), hnnn, hv]

/-- Settles O47: the fetch bounds `pc` and the invariant the popped address, so neither sum wraps; the jumps go to the sums
of R14, which fit in 16 bits; a waiting `Fx0A` stays. -/
theorem pcNeverWraps : Obligations.PcNeverWraps := by
  rintro s t ⟨-, -, hstack⟩ h
  obtain ⟨hpc, u, rfl, ⟨i, hi, effect⟩ | rfl⟩ := step_effect h
  · cases effect with
    | ret k hk =>
      exact .inr (.inr (.inr (.inr (.inl ⟨hi, k, hk, toNat_add_of_fetchable (hstack k (by omega)) (by decide)⟩))))
    | jump nnn => exact .inr (.inr (.inl ⟨nnn, .inl hi, toNat_zextAddr nnn⟩))
    | call nnn => exact .inr (.inr (.inl ⟨nnn, .inr hi, toNat_zextAddr nnn⟩))
    | jumpV0 nnn => exact .inr (.inr (.inr (.inl ⟨nnn, hi, toNat_zextAddr_add_zextByte nnn _⟩)))
    | skip c => exact (State.toNat_skipIf_pc hpc c).imp_right .inl
    | wait x hkeys => exact .inr (.inr (.inr (.inr (.inr ⟨x, hi, lowestKeyDown_none hkeys, rfl⟩))))
    | _ => exact .inl (State.toNat_advance_pc hpc)
  · exact .inl (State.toNat_advance_pc hpc)

/-- After a cycle `pc` is at most `0xFFF + 0xFF`, the highest target of `Bnnn` (R15). -/
theorem step_pc_le {s t : State} (hs : s.inv) (h : step s = .next t) : t.pc.toNat ≤ 0x10FE := by
  obtain ⟨hpc, -⟩ := step_effect h
  have ⟨_, hbound, hstack⟩ := hs
  rcases pcNeverWraps s t hs h with h2 | h4 | ⟨nnn, -, hj⟩ | ⟨nnn, -, hj⟩ | ⟨-, k, hk, hret⟩ | ⟨-, -, -, hwait⟩
  · omega
  · omega
  · omega
  · omega
  · have := hstack k (by omega)
    omega
  · exact hwait ▸ hbound

/-! ## Memory and the stack -/

theorem ExecEffect.mem_wf {s t : State} {i : Instr} (e : ExecEffect s i t) (hm : s.mem.wf) : t.mem.wf := by
  cases e with
  | store _ _ hwf => exact hwf hm
  | _ => exact hm

/-- The stacked addresses stay at most 4094: the call stacks its own `pc`, the return stacks fewer. -/
theorem ExecEffect.stacked_le {s t : State} {i : Instr} (e : ExecEffect s i t) (hpc : s.pc.toNat ≤ 4094)
    (hstack : ∀ j : Fin 16, j.val < s.sp.val → (s.stack[j.val]).toNat ≤ 4094) :
    ∀ j : Fin 16, j.val < t.sp.val → (t.stack[j.val]).toNat ≤ 4094 := by
  cases e with
  | call nnn k hk =>
    intro j hj
    show ((s.stack.set k.val s.pc)[j.val]).toNat ≤ 4094
    rw [Vector.getElem_set]
    split
    · exact hpc
    · next hne =>
      have : j.val < k.val + 1 := hj
      exact hstack j (by omega)
  | ret k hk =>
    intro j (hj : j.val < k.val)
    exact hstack j (by omega)
  | _ => exact hstack

/-- Settles O45: `pc` by `step_pc_le`, memory and the stack by the effect of the instruction; the tick touches none. -/
theorem stepKeepsInvariant : Obligations.StepKeepsInvariant := by
  intro s t hs h
  have hpc' := step_pc_le hs h
  obtain ⟨hmem, -, hstack⟩ := hs
  obtain ⟨hpc, u, rfl, ⟨i, -, effect⟩ | rfl⟩ := step_effect h
  · exact ⟨effect.mem_wf hmem, hpc', effect.stacked_le hpc hstack⟩
  · exact ⟨hmem, hpc', hstack⟩

/-! ## The operations of the host -/

/-- A load that succeeds writes an image that fits above 0x200, and sets `pc` to its start. -/
theorem State.inv_loadProgram {s t : State} {bytes : List Byte} (hs : s.inv) (h : s.loadProgram bytes = .ok t) : t.inv := by
  obtain ⟨hmem, -, hstack⟩ := hs
  unfold State.loadProgram at h
  split at h
  · cases h
  · split at h
    · cases h
    · next hfits =>
      cases h
      have hroom : Config.progBase + bytes.length ≤ Config.memSize := by
        simp only [Config.progMax, Config.progBase, Config.memSize] at hfits ⊢
        omega
      exact ⟨Memory.wf_putBytes hmem hroom, (by decide : (0x200 : Word).toNat ≤ 0x10FE), hstack⟩

theorem State.inv_setKey {s : State} (hs : s.inv) (k : Nat) (down : Bool) : (s.setKey k down).inv := by
  unfold State.setKey
  split
  · exact hs
  · exact hs

theorem perform_keeps_inv (F : Config.Font) (op : HostOp) {s : State} (hs : s.inv) : (perform F op s).1.inv := by
  cases op with
  | reset => exact State.inv_resetWith F
  | step =>
    cases h : step s with
    | next t => simpa only [perform, h] using stepKeepsInvariant s t hs h
    | fault f => simpa only [perform, h] using hs
    | refused r => simpa only [perform, h] using hs
  | loadProgram bytes =>
    cases h : s.loadProgram bytes with
    | ok t => simpa only [perform, h] using State.inv_loadProgram hs h
    | error e => simpa only [perform, h] using hs
  | keyDown k => exact State.inv_setKey hs k true
  | keyUp k => exact State.inv_setKey hs k false
  | display => exact hs
  | readState => exact hs

theorem performAll_keeps_inv (F : Config.Font) (ops : List HostOp) {s : State} (hs : s.inv) : (performAll F ops s).inv := by
  induction ops generalizing s with
  | nil => exact hs
  | cons op ops ih => exact ih (perform_keeps_inv F op hs)

/-- Settles O46: each operation keeps the invariant, which holds at reset, so every run of operations from reset keeps it. -/
theorem reachableStatesMeetInvariant : Obligations.ReachableStatesMeetInvariant := by
  refine ⟨fun F op _ hs => perform_keeps_inv F op hs, ?_⟩
  rintro _ ⟨F, ops, rfl⟩
  exact performAll_keeps_inv F ops (State.inv_resetWith F)

end Sys2Proof.Machine
end

section
/-! PROOFS. The fetch: the word it reads or the fault it takes (20_memory.md R36), and that it reads the bytes that `Fx55`
has just stored (R42). -/

namespace Sys2Proof

/-- The number of an instruction word, the byte at the lower address the high one (20_memory.md R32). -/
theorem wordOfBytes_toNat (hi lo : Byte) : (wordOfBytes hi lo).toNat = hi.toNat * 256 + lo.toNat :=
  append_toNat hi lo

end Sys2Proof

namespace Sys2Proof.Machine

/-! ## The fetch -/

theorem fetch_ok {s : State} (h : s.pc.toNat + 1 < 4096) :
    s.fetch = .ok (wordOfBytes (s.mem.byte s.pc.toNat) (s.mem.byte (s.pc.toNat + 1))) := by
  rcases fetch_cases s with ⟨-, ok⟩ | ⟨hpc, -⟩
  · exact ok
  · omega

theorem fetch_error {s : State} (h : 4096 ≤ s.pc.toNat + 1) :
    s.fetch = .error (.addressOutOfRange .fetch (max s.pc.toNat 4096)) := by
  rcases fetch_cases s with ⟨hpc, -⟩ | ⟨-, error⟩
  · omega
  · exact error

/-- A fault of the fetch is the fault of the cycle (45_host_operations.md R132). -/
theorem step_of_fetch_error {s : State} {f : Fault} (h : s.fetch = .error f) : step s = .fault f := by
  rw [step, cycle, h, attempt_error]

/-- Settles O9: below 4095 by the number of the word fetched, from 4095 on by the fault of the fetch. -/
theorem fetchReadsBigEndianOrFaults : Obligations.FetchReadsBigEndianOrFaults :=
  fun _ => ⟨fun h => ⟨_, fetch_ok h, wordOfBytes_toNat _ _⟩,
    fun h => ⟨fetch_error h, step_of_fetch_error (fetch_error h)⟩⟩

/-! ## The group store -/

@[simp] theorem State.length_readGroup (s : State) (x : Reg) : (s.readGroup x).length = x.val + 1 := by
  simp [State.readGroup]

/-- The group `V[0]` to `V[x]` holds each of its registers at the register's own number. -/
theorem State.getD_readGroup (s : State) {x r : Reg} (h : r ≤ x) (d : Byte) :
    (s.readGroup x).getD r.val d = s.readV r := by
  have hr : r.val < x.val + 1 := Nat.lt_succ_of_le h
  simp [State.readGroup, State.readV, List.getD_eq_getElem?_getD, List.getElem?_take_of_lt hr]

/-- An `Fx55` that completes had its whole group in range, and has stored it at `I` (42_index_and_memory.md R105). -/
theorem exec_storeRegs_next {s t : State} {x : Reg} (h : exec (.storeRegs x) s = .next t) :
    s.base + x.val < 4096 ∧ t = { s with mem := s.mem.putBytes s.base (s.readGroup x) }.advance := by
  obtain ⟨u, hu, ht⟩ := attempt_next h
  rcases memWrite_cases s s.base (s.readGroup x) with ⟨hrange, ok⟩ | ⟨-, -, error⟩
  · cases ok.symm.trans hu
    rw [State.length_readGroup] at hrange
    exact ⟨by omega, (Host.Outcome.next.inj ht).symm⟩
  · cases error.symm.trans hu

/-- After an `Fx55`, the byte at `I + r` is `V[r]`, for every register of the group. -/
theorem byte_of_exec_storeRegs {s t : State} {x r : Reg} (hm : s.mem.wf) (h : exec (.storeRegs x) s = .next t)
    (hr : r ≤ x) : t.mem.byte (s.base + r.val) = s.readV r := by
  obtain ⟨-, rfl⟩ := exec_storeRegs_next h
  have stored : s.base ≤ s.base + r.val ∧ s.base + r.val < s.base + (s.readGroup x).length := by
    rw [State.length_readGroup]
    exact ⟨Nat.le_add_right _ _, Nat.add_lt_add_left (Nat.lt_succ_of_le hr) _⟩
  rw [State.advance_mem, Memory.byte_putBytes hm.1, if_pos stored, Nat.add_sub_cancel_left, State.getD_readGroup s hr]

/-- Settles O12: both addresses of the fetch lie in the range stored, and each reads its register. -/
theorem storedBytesAreFetched : Obligations.StoredBytesAreFetched := by
  intro s t x i j target hm h hij hjx htarget
  obtain ⟨hrange, -⟩ := exec_storeRegs_next h
  have hstart : target.toNat = s.base + i.val := htarget
  have hnext : target.toNat + 1 = s.base + j.val := by omega
  have hjx' : j.val ≤ x.val := hjx
  have hix : i.val ≤ x.val := by omega
  have hi : t.mem.byte target.toNat = s.readV i := by
    rw [hstart, byte_of_exec_storeRegs hm h hix]
  have hj : t.mem.byte (target.toNat + 1) = s.readV j := by
    rw [hnext, byte_of_exec_storeRegs hm h hjx]
  have hpc : (t.jump target).pc.toNat + 1 < 4096 := by
    rw [State.jump_pc]
    omega
  rw [fetch_ok hpc, State.jump_pc, State.jump_mem, hi, hj]

end Sys2Proof.Machine
end

section
/-! PROOFS. The encoder and the decoder (30_encoding.md R50 to R55): a word is put together again from its fields, decoding
gives back what was encoded, and what the decoder can answer is said once for all words. -/

namespace Sys2Proof

/-! ## A word from its fields (R51) -/

section

variable {w : Word} {op : BitVec 4}

theorem formatNNN_of_fields (hop : (fieldN0 w).toNat = op.toNat) : formatNNN op (fieldNNN w) = w := by
  apply BitVec.eq_of_toNat_eq
  rw [formatNNN_toNat, ← hop, fieldN0_toNat, fieldNNN_toNat]
  omega

theorem formatXKK_of_fields {kk : Byte} (hop : (fieldN0 w).toNat = op.toNat) (hkk : (fieldKK w).toNat = kk.toNat) :
    formatXKK op (fieldX w) kk = w := by
  apply BitVec.eq_of_toNat_eq
  rw [formatXKK_toNat, ← hop, ← hkk, fieldN0_toNat, fieldX_val, fieldKK_toNat]
  omega

theorem formatXYN_of_fields {n : BitVec 4} (hop : (fieldN0 w).toNat = op.toNat) (hn : fieldN w = n.toNat) :
    formatXYN op (fieldX w) (fieldY w) n = w := by
  apply BitVec.eq_of_toNat_eq
  rw [formatXYN_toNat, ← hop, ← hn, fieldN0_toNat, fieldX_val, fieldY_val, fieldN_eq]
  omega

/-- Masking the format `op x y n` with 0xFF0F clears the field y. -/
theorem formatXYN_and_FF0F (op : BitVec 4) (x y : Reg) (n : BitVec 4) :
    formatXYN op x y n &&& 0xFF0F = formatXYN op x 0 n := by
  show (op ++ BitVec.ofNat 4 x.val ++ BitVec.ofNat 4 y.val ++ n) &&& (0xF#4 ++ 0xF#4 ++ 0#4 ++ 0xF#4) =
    op ++ BitVec.ofNat 4 x.val ++ 0#4 ++ n
  rw [BitVec.and_append, BitVec.and_append, BitVec.and_append, Laws.and_ones4, Laws.and_ones4, Laws.and_ones4]
  simp

/-- The word of the fields with y written 0 is the word with the field y masked out. -/
theorem formatXYN_zero_of_fields {n : BitVec 4} (hop : (fieldN0 w).toNat = op.toNat) (hn : fieldN w = n.toNat) :
    formatXYN op (fieldX w) 0 n = w &&& 0xFF0F := by
  rw [← formatXYN_and_FF0F _ _ (fieldY w), formatXYN_of_fields hop hn]

end

/-! ## Decoding what was encoded -/

theorem decodeWord_encode {i : Instr} (h : i.wellFormed = true) : decodeWord (encode i) = .ok i := by
  cases i with
  | cls | ret => rfl
  | drw x y n =>
    have hn : n < 16 := of_decide_eq_true h
    simp [encode, decodeWord, Nat.mod_eq_of_lt hn]
  | ldReg | orReg | andReg | xorReg | addReg | subReg | shr | subnReg | shl => simp [encode, decodeWord, decodeGroup8]
  | skp | sknp => simp [encode, decodeWord, decodeGroupE]
  | ldVDT | ldVK | ldDTV | ldSTV | addI | ldF | ldB | storeRegs | loadRegs => simp [encode, decodeWord, decodeGroupF]
  | _ => simp [encode, decodeWord]

theorem decode_bytesOfWord (w : Word) (rest : List Byte) :
    decode (bytesOfWord w ++ rest) = (decodeWord w).map fun i => (i, rest) := by
  show (decodeWord (wordOfBytes _ _)).map (fun i => (i, rest)) = _
  rw [wordOfBytes_bytesOfWord]

/-- Settles O2: the word by the fields of its format, the bytes because they make up the word again. -/
theorem decodeEncodeRoundTrip : Obligations.DecodeEncodeRoundTrip := by
  intro i h
  refine ⟨decodeWord_encode h, fun rest => ?_⟩
  rw [encodeBytes, decode_bytesOfWord, decodeWord_encode h]
  rfl

/-- Settles O7: the field y of the format is read by neither arm of group 8. -/
theorem shiftEncodingsIgnoreY : Obligations.ShiftEncodingsIgnoreY := by
  intro x y
  constructor <;> simp [decodeWord, decodeGroup8]

/-! ## What the decoder can answer -/

/-- The unmatched words as 30_encoding.md R57 lists them. -/
def IsUnmatched (w : Word) : Prop :=
  (w.toNat / 4096 = 0x0 ∧ w ≠ 0x00E0 ∧ w ≠ 0x00EE) ∨
  (w.toNat / 4096 = 0x5 ∧ w.toNat % 16 ≠ 0) ∨
  (w.toNat / 4096 = 0x8 ∧ w.toNat % 16 ∈ [0x8, 0x9, 0xA, 0xB, 0xC, 0xD, 0xF]) ∨
  (w.toNat / 4096 = 0x9 ∧ w.toNat % 16 ≠ 0) ∨
  (w.toNat / 4096 = 0xE ∧ w.toNat % 256 ∉ [0x9E, 0xA1]) ∨
  (w.toNat / 4096 = 0xF ∧ w.toNat % 256 ∉ [0x07, 0x0A, 0x15, 0x18, 0x1E, 0x29, 0x33, 0x55, 0x65])

/-- What the decoder may answer for `w`: the instruction whose word `w` is, a shift whose word is `w` without the field y, or
the rejection of an unmatched word. -/
inductive DecodeAnswer (w : Word) : Except DecodeReject Instr → Prop where
  | encoded (i : Instr) (hwf : i.wellFormed = true) (he : encode i = w) : DecodeAnswer w (.ok i)
  | shift (i : Instr) (hi : ∃ x, i = .shr x ∨ i = .shl x) (he : encode i = w &&& 0xFF0F) : DecodeAnswer w (.ok i)
  | unmatched (h : IsUnmatched w) : DecodeAnswer w (.error (.unmatched w))

section

variable {w : Word}

theorem decodeGroup0_answer (h0 : (fieldN0 w).toNat = 0x0) : DecodeAnswer w (decodeGroup0 w) := by
  rw [decodeGroup0]
  split
  · next h => exact .encoded _ rfl h.symm
  · split
    · next h => exact .encoded _ rfl h.symm
    · next hcls hret => exact .unmatched (.inl ⟨fieldN0_toNat w ▸ h0, hcls, hret⟩)

theorem decodeGroup8_answer (h0 : (fieldN0 w).toNat = 0x8) : DecodeAnswer w (decodeGroup8 w) := by
  unfold decodeGroup8
  split
  -- the two shifts, which drop the field y
  case h_7 hn => exact .shift _ ⟨_, .inl rfl⟩ (formatXYN_zero_of_fields h0 hn)
  case h_9 hn => exact .shift _ ⟨_, .inr rfl⟩ (formatXYN_zero_of_fields h0 hn)
  case h_10 =>
    simp only [fieldN0_toNat, fieldN_eq, imp_false] at *
    refine .unmatched (.inr (.inr (.inl ⟨h0, ?_⟩)))
    simp only [List.mem_cons, List.not_mem_nil, or_false]
    omega
  all_goals next hn => exact .encoded _ rfl (formatXYN_of_fields h0 hn)

theorem decodeGroupE_answer (h0 : (fieldN0 w).toNat = 0xE) : DecodeAnswer w (decodeGroupE w) := by
  unfold decodeGroupE
  split
  case h_3 =>
    simp only [fieldN0_toNat, fieldKK_toNat, imp_false] at *
    refine .unmatched (.inr (.inr (.inr (.inr (.inl ⟨h0, ?_⟩)))))
    simp only [List.mem_cons, List.not_mem_nil, or_false]
    omega
  all_goals next hkk => exact .encoded _ rfl (formatXKK_of_fields h0 hkk)

theorem decodeGroupF_answer (h0 : (fieldN0 w).toNat = 0xF) : DecodeAnswer w (decodeGroupF w) := by
  unfold decodeGroupF
  split
  case h_10 =>
    simp only [fieldN0_toNat, fieldKK_toNat, imp_false] at *
    refine .unmatched (.inr (.inr (.inr (.inr (.inr ⟨h0, ?_⟩)))))
    simp only [List.mem_cons, List.not_mem_nil, or_false]
    omega
  all_goals next hkk => exact .encoded _ rfl (formatXKK_of_fields h0 hkk)

/-- What the decoder answers, for every word. -/
theorem decodeWord_answer (w : Word) : DecodeAnswer w (decodeWord w) := by
  unfold decodeWord
  split
  case h_1 h0 => exact decodeGroup0_answer h0
  case h_6 h0 =>
    split
    · next hn => exact .encoded _ rfl (formatXYN_of_fields h0 hn)
    · next hn => exact .unmatched (.inr (.inl ⟨fieldN0_toNat w ▸ h0, fieldN_eq w ▸ hn⟩))
  case h_9 h0 => exact decodeGroup8_answer h0
  case h_10 h0 =>
    split
    · next hn => exact .encoded _ rfl (formatXYN_of_fields h0 hn)
    · next hn => exact .unmatched (.inr (.inr (.inr (.inl ⟨fieldN0_toNat w ▸ h0, fieldN_eq w ▸ hn⟩))))
  case h_14 h0 =>
    have hn : fieldN w < 16 := (w.extractLsb' 0 4).isLt
    exact .encoded _ (decide_eq_true hn) (formatXYN_of_fields h0 (Nat.mod_eq_of_lt hn).symm)
  case h_15 h0 => exact decodeGroupE_answer h0
  case h_16 h0 => exact decodeGroupF_answer h0
  case h_17 =>
    simp only [imp_false] at *
    have := (fieldN0 w).isLt
    omega
  case h_2 | h_3 | h_11 | h_12 => next h0 => exact .encoded _ rfl (formatNNN_of_fields h0)
  all_goals next h0 => exact .encoded _ rfl (formatXKK_of_fields h0 rfl)

end

/-- Settles O3: an answer that is an instruction is one of the first two; a shift is well formed whatever its operand. -/
theorem decodedIsWellFormedAndReencodes : Obligations.DecodedIsWellFormedAndReencodes := by
  intro w i h
  have answer := decodeWord_answer w
  rw [h] at answer
  cases answer with
  | encoded _ hwf he => exact ⟨hwf, .inl he⟩
  | shift _ hi he =>
    refine ⟨?_, .inr ⟨hi, he⟩⟩
    obtain ⟨x, rfl | rfl⟩ := hi <;> rfl

/-- A rejection is the one of an unmatched word. -/
theorem decodeWord_error {w : Word} {e : DecodeReject} (h : decodeWord w = .error e) : e = .unmatched w ∧ IsUnmatched w := by
  have answer := decodeWord_answer w
  rw [h] at answer
  cases answer with
  | unmatched hw => exact ⟨rfl, hw⟩

end Sys2Proof
end

section
/-! PROOFS. The opcode table (30_encoding.md R53, R55, R57): its rows are disjoint, a decoded word matches the row of its
instruction, and the unmatched words match no row. -/

namespace Sys2Proof

/-- The rows conflict: the bits that two different rows both test are required to differ. -/
theorem opcodeRows_conflict : ∀ j k : Fin 34, opcodeTable[j.val].matchBits &&& opcodeTable[k.val].mask =
    opcodeTable[k.val].matchBits &&& opcodeTable[j.val].mask → j = k := by decide

/-- Settles O5: a word that matched both rows would have, at the bits both test, the bits that each requires. -/
theorem opcodeRowsAreDisjoint : Obligations.OpcodeRowsAreDisjoint := by
  intro j k r q w hr hq hwr hwq
  obtain ⟨hj, rfl⟩ := List.getElem?_eq_some_iff.1 hr
  obtain ⟨hk, rfl⟩ := List.getElem?_eq_some_iff.1 hq
  refine congrArg Fin.val (opcodeRows_conflict ⟨j, hj⟩ ⟨k, hk⟩ ?_)
  show opcodeTable[j].matchBits &&& opcodeTable[k].mask = opcodeTable[k].matchBits &&& opcodeTable[j].mask
  rw [← hwr, ← hwq, BitVec.and_assoc, BitVec.and_assoc, BitVec.and_comm opcodeTable[j].mask]

/-! ## Masked words as numbers -/

theorem formatXKK_fields (w : Word) : formatXKK (fieldN0 w) (fieldX w) (fieldKK w) = w := formatXKK_of_fields rfl rfl

theorem formatXYN_fields (w : Word) : formatXYN (fieldN0 w) (fieldX w) (fieldY w) (w.extractLsb' 0 4) = w :=
  formatXYN_of_fields rfl rfl

theorem toNat_and_F000 (w : Word) : (w &&& 0xF000#16).toNat = w.toNat / 4096 * 4096 := by
  have h := Laws.formatXKK_and_F000 (fieldN0 w) (fieldX w) (fieldKK w)
  rw [formatXKK_fields, BitVec.ofNat_eq_ofNat] at h
  rw [h, formatXKK_toNat, fieldN0_toNat]
  simp

theorem toNat_and_F0FF (w : Word) : (w &&& 0xF0FF#16).toNat = w.toNat / 4096 * 4096 + w.toNat % 256 := by
  have h := Laws.formatXKK_and_F0FF (fieldN0 w) (fieldX w) (fieldKK w)
  rw [formatXKK_fields, BitVec.ofNat_eq_ofNat] at h
  rw [h, formatXKK_toNat, fieldN0_toNat, fieldKK_toNat]
  simp

theorem toNat_and_F00F (w : Word) : (w &&& 0xF00F#16).toNat = w.toNat / 4096 * 4096 + w.toNat % 16 := by
  have h := Laws.formatXYN_and_F00F (fieldN0 w) (fieldX w) (fieldY w) (w.extractLsb' 0 4)
  rw [formatXYN_fields, BitVec.ofNat_eq_ofNat] at h
  rw [h, formatXYN_toNat, fieldN0_toNat]
  simp

theorem toNat_and_FFFF (w : Word) : (w &&& 0xFFFF#16).toNat = w.toNat :=
  congrArg BitVec.toNat BitVec.and_allOnes

/-- No word that R57 lists matches a row: as numbers, its major opcode has no row, or its low digits are those of none. -/
theorem IsUnmatched.no_row {w : Word} (h : IsUnmatched w) : ∀ row ∈ opcodeTable, w &&& row.mask ≠ row.matchBits := by
  simp only [IsUnmatched, ne_eq, ← BitVec.toNat_inj, BitVec.ofNat_eq_ofNat, BitVec.reduceToNat, List.mem_cons,
    List.not_mem_nil, or_false] at h
  simp only [opcodeTable, opcodeRowsA, opcodeRowsB, opcodeRowsC, List.cons_append, List.nil_append, List.forall_mem_cons,
    List.not_mem_nil, false_imp_iff, implies_true, and_true, ne_eq, ← BitVec.toNat_inj, BitVec.ofNat_eq_ofNat,
    BitVec.reduceToNat, toNat_and_F000, toNat_and_F00F, toNat_and_F0FF, toNat_and_FFFF]
  omega

/-! ## The rows and the decoder -/

/-- The word of every instruction matches the instruction's own row. -/
theorem encodesRow (i : Instr) : Laws.EncodesRow.Statement i := by
  open Laws.EncodesRow in
  cases i with
  | cls => exact cls
  | ret => exact ret
  | jp nnn => exact jp nnn
  | call nnn => exact call nnn
  | seImm x kk => exact seImm x kk
  | sneImm x kk => exact sneImm x kk
  | seReg x y => exact seReg x y
  | ldImm x kk => exact ldImm x kk
  | addImm x kk => exact addImm x kk
  | ldReg x y => exact ldReg x y
  | orReg x y => exact orReg x y
  | andReg x y => exact andReg x y
  | xorReg x y => exact xorReg x y
  | addReg x y => exact addReg x y
  | subReg x y => exact subReg x y
  | shr x => exact shr x
  | subnReg x y => exact subnReg x y
  | shl x => exact shl x
  | sneReg x y => exact sneReg x y
  | ldI nnn => exact ldI nnn
  | jpV0 nnn => exact jpV0 nnn
  | rnd x kk => exact rnd x kk
  | drw x y n => exact drw x y n
  | skp x => exact skp x
  | sknp x => exact sknp x
  | ldVDT x => exact ldVDT x
  | ldVK x => exact ldVK x
  | ldDTV x => exact ldDTV x
  | ldSTV x => exact ldSTV x
  | addI x => exact addI x
  | ldF x => exact ldF x
  | ldB x => exact ldB x
  | storeRegs x => exact storeRegs x
  | loadRegs x => exact loadRegs x

/-- The row of a shift does not look at the field y. -/
theorem shift_row_mask {i : Instr} (hi : ∃ x, i = .shr x ∨ i = .shl x) {row : OpcodeRow}
    (hrow : opcodeTable[i.rowIndex]? = some row) : 0xFF0F &&& row.mask = row.mask := by
  obtain ⟨x, rfl | rfl⟩ := hi <;> cases hrow <;> rfl

/-- A word that decodes matches the row of its instruction. -/
theorem decodeWord_matches_row {w : Word} {i : Instr} (h : decodeWord w = .ok i) :
    ∃ row, opcodeTable[i.rowIndex]? = some row ∧ w &&& row.mask = row.matchBits := by
  obtain ⟨row, hrow, haccepts⟩ := encodesRow i
  have hmatch : encode i &&& row.mask = row.matchBits := eq_of_beq haccepts
  refine ⟨row, hrow, ?_⟩
  rcases (decodedIsWellFormedAndReencodes w i h).2 with he | ⟨hi, he⟩
  · rwa [he] at hmatch
  · rwa [he, BitVec.and_assoc, shift_row_mask hi hrow] at hmatch

/-- The decoder rejects exactly the words that match no row. -/
theorem decodeWord_error_iff_no_row (w : Word) :
    (∃ e, decodeWord w = .error e) ↔ ∀ row ∈ opcodeTable, w &&& row.mask ≠ row.matchBits := by
  refine ⟨fun ⟨_, h⟩ => (decodeWord_error h).2.no_row, fun hnone => ?_⟩
  cases h : decodeWord w with
  | error e => exact ⟨e, rfl⟩
  | ok i =>
    obtain ⟨row, hrow, hmatch⟩ := decodeWord_matches_row h
    exact absurd hmatch (hnone row (List.mem_of_getElem? hrow))

/-- Settles O4: a word that matches a row decodes, and since it also matches the row of its instruction, the two rows are
one. -/
theorem decoderAgreesWithOpcodeTable : Obligations.DecoderAgreesWithOpcodeTable := by
  refine ⟨rfl, fun w => ⟨fun k row hk => ⟨fun hmatch => ?_, ?_⟩, decodeWord_error_iff_no_row w⟩⟩
  · cases h : decodeWord w with
    | error e => exact absurd hmatch ((decodeWord_error_iff_no_row w).1 ⟨e, h⟩ row (List.mem_of_getElem? hk))
    | ok i =>
      obtain ⟨q, hq, hwq⟩ := decodeWord_matches_row h
      exact ⟨i, rfl, opcodeRowsAreDisjoint _ _ q row w hq hk hwq hmatch⟩
  · rintro ⟨i, h, rfl⟩
    obtain ⟨q, hq, hwq⟩ := decodeWord_matches_row h
    cases hk.symm.trans hq
    exact hwq

/-- Settles O6: the decoder rejects no other words, and it rejects these because they match no row. -/
theorem unmatchedWordsExactly : Obligations.UnmatchedWordsExactly := by
  intro w
  refine ⟨fun h => (decodeWord_error h).2, fun (h : IsUnmatched w) => ?_⟩
  obtain ⟨e, he⟩ := (decodeWord_error_iff_no_row w).2 h.no_row
  rwa [(decodeWord_error he).1] at he

/-- Settles O1: the ten words are closed terms of the model. -/
theorem writtenWordsDecode : Obligations.WrittenWordsDecode := by
  unfold Obligations.WrittenWordsDecode
  decide

end Sys2Proof
end

section
/-! PROOFS. The cycle on an unmatched word (30_encoding.md R56), and that no cycle ends in a refusal
(45_host_operations.md R132). -/

namespace Sys2Proof.Machine

/-- A cycle on a word that the decoder rejects advances `pc` and ticks (30_encoding.md R56). -/
theorem step_of_decode_error {s : State} {w : Word} {e : DecodeReject} (hw : s.fetch = .ok w)
    (he : decodeWord w = .error e) : step s = .next s.advance.tick := by
  rw [step, cycle, hw, attempt_ok, execWord_error he, endCycle_next]

/-- The advance and the tick change `pc` and the timers, and nothing else. -/
theorem frame_advance_tick (s : State) : Frame.holds { delayTimer := true, soundTimer := true } s s.advance.tick := by
  simp [Frame.holds]

/-- Settles O8: the decoder rejects the word, so the cycle is the advance and the tick. -/
theorem unmatchedWordIsNoOp : Obligations.UnmatchedWordIsNoOp := by
  rintro s w hpc rfl hnone
  obtain ⟨e, he⟩ := (decodeWord_error_iff_no_row _).2 hnone
  exact ⟨_, step_of_decode_error (fetch_ok hpc) he, State.toNat_advance_pc (by omega), countDown_toNat _, countDown_toNat _,
    frame_advance_tick s⟩

/-- A checked operation that always goes on to a next state is never refused. -/
theorem attempt_next_ne_refused {α : Type} (e : Except Fault α) (k : α → State) (r : Refusal) :
    attempt e (fun a => .next (k a)) ≠ .refused r := by
  intro h
  obtain ⟨_, -, h⟩ := attempt_refused h
  cases h

/-- Every instruction has a meaning. -/
theorem exec_ne_refused (i : Instr) (s : State) (r : Refusal) : exec i s ≠ .refused r := by
  cases i with
  | ret | call | drw | skp | sknp | ldB | storeRegs | loadRegs => exact attempt_next_ne_refused _ _ r
  | ldVK x =>
    show execLdVK x s ≠ .refused r
    unfold execLdVK
    split <;> exact nofun
  | _ => exact nofun

/-- The tick refuses nothing. -/
theorem endCycle_eq_refused {o : Host.Outcome State Fault Refusal} {r : Refusal} (h : endCycle o = .refused r) :
    o = .refused r := by
  cases o with
  | refused q => exact h
  | next t => cases h
  | fault f => cases h

/-- Settles O15: neither an instruction nor an unmatched word is refused, and the tick refuses nothing. -/
theorem stepNeverRefuses : Obligations.StepNeverRefuses := by
  intro s r h
  obtain ⟨w, -, hcycle⟩ := attempt_refused h
  have hword := endCycle_eq_refused hcycle
  cases hd : decodeWord w with
  | ok i => exact exec_ne_refused i s r (execWord_ok hd s ▸ hword)
  | error e => cases (execWord_error hd s).symm.trans hword

end Sys2Proof.Machine
end

section
/-! PROOFS. Control transfer and the conditional skips (40_flow_and_skips.md R70 to R78): the jumps, the skips, and a call
followed at once by its return. -/

namespace Sys2Proof.Machine

/-! ## The jumps and the skips -/

/-- A jump changes `pc` and nothing else. -/
theorem frame_jump (s : State) (target : Word) : Frame.holds {} s (s.jump target) := by
  simp [Frame.holds]

/-- Settles O18: the encodings by the round trip; `pc` is the target of the jump, and neither target exceeds 16 bits. -/
theorem jumpsSetPc : Obligations.JumpsSetPc := fun s nnn =>
  ⟨decodeWord_encode (i := .jp nnn) rfl, decodeWord_encode (i := .jpV0 nnn) rfl,
    ⟨_, rfl, toNat_zextAddr nnn, frame_jump s _⟩, ⟨_, rfl, toNat_zextAddr_add_zextByte nnn _, frame_jump s _⟩⟩

/-- A conditional skip advances `pc` by 4 where its condition is met, by 2 where it is not, and changes nothing else (R79). -/
theorem completes_skipIf {s : State} {o : Host.Outcome State Fault Refusal} {c : Bool} {met unmet : Prop}
    (ho : o = .next (s.skipIf c)) (hmet : met → c = true) (hunmet : unmet → c = false) :
    Completes o fun t => (met → t.pc = s.pc + 4) ∧ (unmet → t.pc = s.pc + 2) ∧ Frame.holds {} s t := by
  refine ⟨_, ho, fun h => ?_, fun h => ?_, frame_jump s _⟩
  · rw [State.skipIf_pc, if_pos (hmet h)]
  · rw [State.skipIf_pc, if_neg (Bool.eq_false_iff.1 (hunmet h))]

/-- Settles O19: each of the two is a conditional skip on the comparison of `V[x]` with `kk`. -/
theorem immediateSkips : Obligations.ImmediateSkips := fun _ x kk =>
  ⟨decodeWord_encode (i := .seImm x kk) rfl, decodeWord_encode (i := .sneImm x kk) rfl,
    completes_skipIf rfl beq_iff_eq.2 beq_eq_false_iff_ne.2, completes_skipIf rfl bne_iff_ne.2 bne_eq_false_iff_eq.2⟩

/-- The words `5xyn` and `9xyn` with `n` not 0 match no row (30_encoding.md R57). -/
theorem decodeWord_formatXYN_unmatched {op n : BitVec 4} (hop : op = 0x5 ∨ op = 0x9) (x y : Reg) (hn : n ≠ 0) :
    decodeWord (formatXYN op x y n) = .error (.unmatched (formatXYN op x y n)) := by
  have hN : fieldN (formatXYN op x y n) ≠ 0 := by
    rw [fieldN_formatXYN]
    exact fun h => hn (BitVec.eq_of_toNat_eq h)
  rcases hop with rfl | rfl
  · simp only [decodeWord, fieldN0_formatXYN]
    exact if_neg hN
  · simp only [decodeWord, fieldN0_formatXYN]
    exact if_neg hN

/-- Settles O20: each of the two is a conditional skip on the comparison of `V[x]` with `V[y]`. -/
theorem registerSkips : Obligations.RegisterSkips := fun _ x y =>
  ⟨decodeWord_encode (i := .seReg x y) rfl, decodeWord_encode (i := .sneReg x y) rfl,
    fun _ hn => ⟨decodeWord_formatXYN_unmatched (.inl rfl) x y hn, decodeWord_formatXYN_unmatched (.inr rfl) x y hn⟩,
    completes_skipIf rfl beq_iff_eq.2 beq_eq_false_iff_ne.2, completes_skipIf rfl bne_iff_ne.2 bne_eq_false_iff_eq.2⟩

/-! ## The call and the return -/

/-- `2nnn` with `k` return addresses stacked, fewer than 16: its own address becomes entry `k` (R73). -/
theorem exec_call_next {s : State} {k : Fin 16} (hk : s.sp.val = k.val) (nnn : BitVec 12) :
    exec (.call nnn) s =
      .next ({ s with stack := s.stack.set k.val s.pc, sp := k.succ }.jump (zextAddr nnn)) := by
  obtain ⟨j, hlt⟩ := k
  obtain rfl : j = s.sp.val := hk.symm
  show attempt s.push _ = _
  rw [push_ok hlt]
  rfl

/-- `00EE` with `k + 1` return addresses stacked: entry `k` is popped and stays in the stack (R71). -/
theorem exec_ret_next {s : State} {k : Fin 16} (hk : s.sp.val = k.val + 1) :
    exec .ret s = .next ({ s with sp := k.castSucc }.jump (s.stack[k.val] + 2)) := by
  obtain ⟨j, hj⟩ := k
  obtain rfl : j = s.sp.val - 1 := by rw [hk, Nat.add_sub_cancel]
  show attempt s.pop _ = _
  rw [pop_ok (hk ▸ Nat.succ_pos _)]
  rfl

/-- The cycle of an instruction that completes is the instruction and the tick (45_host_operations.md R132). -/
theorem step_of_executes {s t : State} {i : Instr} (hi : s.executes i) (ht : exec i s = .next t) : step s = .next t.tick := by
  obtain ⟨w, hw, hd⟩ := hi
  rw [step, cycle, hw, attempt_ok, execWord_ok hd, ht, endCycle_next]

/-- The bytes `00 EE` at `pc` are executed as the return. -/
theorem State.executes_ret {s : State} {a : Nat} (hpc : s.pc.toNat = a) (ha : a + 1 < 4096) (hhi : s.mem.byte a = 0x00)
    (hlo : s.mem.byte (a + 1) = 0xEE) : s.executes .ret := by
  subst hpc
  refine ⟨_, fetch_ok ha, ?_⟩
  rw [hhi, hlo]
  rfl

/-- Settles O23: the call stacks `pc` as entry `sp`, the return at its target pops that entry, and the cycle of the call
could fetch, so that `pc + 2` does not wrap. -/
theorem callThenReturnRestoresPc : Obligations.CallThenReturnRestoresPc := by
  intro s nnn hsp hcall hnnn hhi hlo
  have call_step := step_of_executes hcall (exec_call_next (k := ⟨s.sp.val, hsp⟩) rfl nnn)
  have popped : (s.stack.set s.sp.val s.pc)[s.sp.val] = s.pc := Vector.getElem_set_self hsp
  refine ⟨_, ⟨_, call_step, _, step_of_executes (State.executes_ret (toNat_zextAddr nnn) hnnn hhi hlo)
    (exec_ret_next (k := ⟨s.sp.val, hsp⟩) rfl), rfl⟩, ?_, rfl, fun k => ?_, ?_⟩
  · show ((s.stack.set s.sp.val s.pc)[s.sp.val] + 2).toNat = s.pc.toNat + 2
    rw [popped]
    exact toNat_add_of_fetchable (step_effect call_step).1 (by decide)
  · show (s.stack.set s.sp.val s.pc)[k.val] = _
    simp only [Vector.getElem_set, eq_comm]
  · exact ⟨fun _ _ => rfl, by simp⟩

end Sys2Proof.Machine
end

section
/-! PROOFS. Register load, immediate add and bitwise logic (41_alu.md R81 to R86): the instructions that write `V[x]` and no
flag. -/

namespace Sys2Proof.Machine

/-- A write to `V[x]` and the advance change `V[x]` and `pc`, and nothing else: no flag, unless `x` is F. -/
theorem frame_writeV_advance (s : State) (x : Reg) (v : Byte) : Frame.holds { regs := [x] } s (s.writeV x v).advance :=
  ⟨fun _ hr => s.readV_writeV_of_ne v (List.ne_of_not_mem_cons hr), by simp⟩

/-- An instruction that writes `v` to `V[x]` and advances completes within that frame, and whatever follows from `V[x] = v`
holds of the state it completes in. -/
theorem completes_writeV {s : State} {o : Host.Outcome State Fault Refusal} {x : Reg} {v : Byte} {result : State → Prop}
    (ho : o = .next (s.writeV x v).advance) (hresult : ∀ t : State, t.readV x = v → result t) :
    Completes o fun t => result t ∧ t.pc = s.pc + 2 ∧ Frame.holds { regs := [x] } s t :=
  ⟨_, ho, hresult _ (s.readV_writeV_self x v), rfl, frame_writeV_advance s x v⟩

/-- Settles O24: each of the three writes `V[x]` alone; the sum of two bytes is reduced modulo 256. -/
theorem loadsAndImmediateAdd : Obligations.LoadsAndImmediateAdd := fun s x y kk =>
  ⟨decodeWord_encode (i := .ldImm x kk) rfl, decodeWord_encode (i := .addImm x kk) rfl,
    decodeWord_encode (i := .ldReg x y) rfl,
    completes_writeV rfl fun _ hv => hv,
    completes_writeV rfl fun _ hv => hv ▸ BitVec.toNat_add (s.readV x) kk,
    completes_writeV rfl fun _ hv => hv⟩

/-- Settles O25: each of the three writes `V[x]` alone, and its result is taken bit by bit. -/
theorem logicOperations : Obligations.LogicOperations := fun _ x y =>
  ⟨decodeWord_encode (i := .orReg x y) rfl, decodeWord_encode (i := .andReg x y) rfl,
    decodeWord_encode (i := .xorReg x y) rfl,
    completes_writeV rfl fun _ hv _ _ => hv ▸ BitVec.getLsbD_or,
    completes_writeV rfl fun _ hv _ _ => hv ▸ BitVec.getLsbD_and,
    completes_writeV rfl fun _ hv _ _ => hv ▸ BitVec.getLsbD_xor⟩

end Sys2Proof.Machine
end

section
/-! PROOFS. The index register and the group load: `Annn` and `Fx1E` (42_index_and_memory.md R101, R102), and that `Fx65`
gives back what `Fx55` stored (R105, R106). -/

namespace Sys2Proof.Machine

/-! ## The index register -/

/-- A write to `I` and the advance change `I` and `pc`, and nothing else: no flag, whatever the sum (R102). -/
theorem frame_index_advance (s : State) (a : Word) : Frame.holds { index := true } s { s with I := a }.advance :=
  ⟨fun _ _ => rfl, by simp⟩

/-- An instruction that writes `a` to `I` and advances completes within that frame, and whatever follows from `I = a` holds
of the state it completes in. -/
theorem completes_index {s : State} {o : Host.Outcome State Fault Refusal} {a : Word} {result : State → Prop}
    (ho : o = .next { s with I := a }.advance) (hresult : ∀ t : State, t.I = a → result t) :
    Completes o fun t => result t ∧ t.pc = s.pc + 2 ∧ Frame.holds { index := true } s t :=
  ⟨_, ho, hresult _ rfl, rfl, frame_index_advance s a⟩

theorem toNat_zextByte (v : Byte) : (zextByte v).toNat = v.toNat :=
  BitVec.toNat_setWidth_of_le (by decide)

/-- The sum of a 16-bit value and a byte wraps at 65536. -/
theorem toNat_add_zextByte (a : Word) (v : Byte) : (a + zextByte v).toNat = (a.toNat + v.toNat) % 65536 := by
  rw [BitVec.toNat_add, toNat_zextByte]

/-- Settles O29: each of the two writes `I` alone; an address of 12 bits is kept, the sum is reduced modulo 65536. -/
theorem indexLoadAndAdd : Obligations.IndexLoadAndAdd := fun s x nnn =>
  ⟨decodeWord_encode (i := .ldI nnn) rfl, decodeWord_encode (i := .addI x) rfl,
    completes_index rfl fun _ hI => hI ▸ toNat_zextAddr nnn,
    completes_index rfl fun _ hI => hI ▸ toNat_add_zextByte s.I (s.readV x)⟩

/-! ## The group load -/

/-- An `Fx65` that completes had its whole group in range, and has loaded it from `I` (R106). -/
theorem exec_loadRegs_next {s t : State} {x : Reg} (h : exec (.loadRegs x) s = .next t) :
    s.base + x.val < 4096 ∧ t = (s.writeGroup (s.mem.bytes s.base (x.val + 1))).advance := by
  obtain ⟨m, hm, ht⟩ := attempt_next h
  rcases memRead_cases s .load s.base (x.val + 1) with ⟨hrange, ok⟩ | ⟨-, -, error⟩
  · cases ok.symm.trans hm
    exact ⟨by omega, (Host.Outcome.next.inj ht).symm⟩
  · cases error.symm.trans hm

/-- After an `Fx65`, `V[r]` is the byte at `I + r`, for every register of the group. -/
theorem readV_of_exec_loadRegs {s t : State} {x r : Reg} (h : exec (.loadRegs x) s = .next t) (hr : r ≤ x) :
    t.readV r = s.mem.byte (s.base + r.val) := by
  obtain ⟨-, rfl⟩ := exec_loadRegs_next h
  calc (s.writeGroup (s.mem.bytes s.base (x.val + 1))).advance.readV r
      = (s.mem.bytes s.base (x.val + 1)).getD r.val (s.readV r) := State.readV_writeGroup s _ r
    _ = s.mem.byte (s.base + r.val) := by rw [Memory.getD_bytes, if_pos (Nat.lt_succ_of_le hr)]

/-- Settles O34: `V[i]` is loaded from the byte at `I + i`, which the store has set to `V[i]`. -/
theorem storeThenLoadRestoresRegisters : Obligations.StoreThenLoadRestoresRegisters := by
  intro s t u v x hm hstore hmem hI hload i hi
  have hbase : u.base = s.base := congrArg BitVec.toNat hI
  rw [readV_of_exec_loadRegs hload hi, hmem, hbase, byte_of_exec_storeRegs hm hstore hi]

end Sys2Proof.Machine
end

section
/-! PROOFS. The display: the clear, and that the same sprite drawn twice leaves the framebuffer as it was (43_display.md R110
to R114). A sprite is drawn by inverting the pixels of one list; that no pixel stands in it twice is what makes a draw its own
inverse and its flag a fact about the framebuffer before it. -/

namespace Sys2Proof.Machine

/-! ## The clear -/

/-- Settles O35: the framebuffer becomes the cleared one, whose pixels are all off. -/
theorem clearScreen : Obligations.ClearScreen :=
  ⟨decodeWord_encode (i := .cls) rfl, fun _ => ⟨_, rfl, fun d _ => pixel_clearedFb d, rfl, fun _ _ => rfl, by simp⟩⟩

/-! ## Inverting a list of pixels -/

/-- Invert one pixel, and record a collision if it was on: what a set sprite bit does (R111). -/
def Canvas.invert (cv : Canvas) (d : Nat) : Canvas :=
  { fb := flipPixel cv.fb d, collided := cv.collided || pixel cv.fb d }

/-- Inverting the pixels of a list without duplicates inverts those and leaves every other alone. -/
theorem pixel_foldl_invert {l : List Nat} (hnodup : l.Nodup) (hlt : ∀ d ∈ l, d < 2048) (cv : Canvas) {e : Nat}
    (he : e < 2048) : pixel (l.foldl Canvas.invert cv).fb e = (decide (e ∈ l) ^^ pixel cv.fb e) := by
  induction l generalizing cv with
  | nil => simp
  | cons d l ih =>
    obtain ⟨hd, hnodup⟩ := List.nodup_cons.1 hnodup
    obtain ⟨hdlt, hlt⟩ := List.forall_mem_cons.1 hlt
    rw [List.foldl_cons, ih hnodup hlt, Canvas.invert, pixel_flipPixel _ hdlt he]
    by_cases hed : e = d
    · simp [hed, hd]
    · simp [hed]

/-- Whether some element of a list satisfies a test depends on the test at its elements only. -/
theorem any_eq_any_of_forall_mem {l : List Nat} {p q : Nat → Bool} (h : ∀ d ∈ l, p d = q d) : l.any p = l.any q := by
  rw [Bool.eq_iff_iff, List.any_eq_true, List.any_eq_true]
  exact exists_congr fun d => and_congr_right fun hd => by rw [h d hd]

/-- Inverting the pixels of a list without duplicates collides iff one of them was on before the first was inverted. -/
theorem collided_foldl_invert {l : List Nat} (hnodup : l.Nodup) (hlt : ∀ d ∈ l, d < 2048) (cv : Canvas) :
    (l.foldl Canvas.invert cv).collided = (cv.collided || l.any (pixel cv.fb)) := by
  induction l generalizing cv with
  | nil => simp
  | cons d l ih =>
    obtain ⟨hd, hnodup⟩ := List.nodup_cons.1 hnodup
    obtain ⟨hdlt, hlt⟩ := List.forall_mem_cons.1 hlt
    have others : l.any (pixel (flipPixel cv.fb d)) = l.any (pixel cv.fb) :=
      any_eq_any_of_forall_mem fun e he => by
        rw [pixel_flipPixel _ hdlt (hlt e he), if_neg (ne_of_mem_of_not_mem he hd)]
    rw [List.foldl_cons, ih hnodup hlt, Canvas.invert, others, List.any_cons, Bool.or_assoc]

/-! ## The pixels that a sprite covers -/

/-- The pixels on which the set bits of row `r` of the sprite at `I` land. -/
def rowPixels (s : State) (x y : Reg) (r : Nat) : List Nat :=
  ((List.range 8).filter (spriteBit s r)).map (destination s x y r)

/-- The pixels that a sprite of `n` rows covers with a set bit, in the order in which they are drawn. -/
def spritePixels (s : State) (x y : Reg) (n : Nat) : List Nat := (List.range n).flatMap (rowPixels s x y)

theorem mem_rowPixels {s : State} {x y : Reg} {r d : Nat} :
    d ∈ rowPixels s x y r ↔ ∃ c, c < 8 ∧ spriteBit s r c = true ∧ destination s x y r c = d := by
  simp [rowPixels, and_assoc]

theorem mem_spritePixels {s : State} {x y : Reg} {n d : Nat} : d ∈ spritePixels s x y n ↔ Covers s x y n d := by
  simp [spritePixels, mem_rowPixels, Covers]

theorem lt_of_mem_spritePixels {s : State} {x y : Reg} {n d : Nat} (h : d ∈ spritePixels s x y n) : d < 2048 := by
  obtain ⟨r, c, -, -, -, rfl⟩ := mem_spritePixels.1 h
  exact Nat.mod_lt _ (by decide)

/-- Up to the height of the screen, no two positions of a sprite have one destination: they are less than 2048 apart. -/
theorem destination_inj {s : State} {x y : Reg} {r c r' c' : Nat} (hr : r < 32) (hr' : r' < 32) (hc : c < 8) (hc' : c' < 8)
    (h : destination s x y r c = destination s x y r' c') : r = r' ∧ c = c' := by
  unfold destination at h
  omega

/-- Up to the height of the screen, a sprite covers no pixel twice. -/
theorem nodup_spritePixels (s : State) (x y : Reg) {n : Nat} (hn : n ≤ 32) : (spritePixels s x y n).Nodup := by
  refine List.nodup_flatMap.2 ⟨fun r hr => ?within_a_row, List.nodup_range.imp_of_mem fun hr hr' hne => ?between_rows⟩
  case within_a_row =>
    have hr : r < 32 := Nat.lt_of_lt_of_le (List.mem_range.1 hr) hn
    refine (List.nodup_range.filter _).map_on fun c hc c' hc' h => ?_
    exact (destination_inj hr hr (List.mem_range.1 (List.mem_filter.1 hc).1) (List.mem_range.1 (List.mem_filter.1 hc').1) h).2
  case between_rows =>
    rintro d hd hd'
    obtain ⟨c, hc, -, rfl⟩ := mem_rowPixels.1 hd
    obtain ⟨c', hc', -, h⟩ := mem_rowPixels.1 hd'
    exact hne (destination_inj (Nat.lt_of_lt_of_le (List.mem_range.1 hr) hn) (Nat.lt_of_lt_of_le (List.mem_range.1 hr') hn)
      hc hc' h.symm).1

/-! ## A draw inverts the pixels that its sprite covers -/

/-- One row is drawn by inverting the pixels of its set bits (R111). -/
theorem drawRow_eq_foldl_invert (s : State) (x y : Reg) (r : Nat) (cv : Canvas) :
    drawRow (s.readV x) (s.readV y) (s.mem.byte (s.base + r)) r cv = (rowPixels s x y r).foldl Canvas.invert cv := by
  rw [rowPixels, List.foldl_map, List.foldl_filter]
  rfl

/-- The rows of a sprite are drawn one after the other, each with its number. -/
theorem drawRows_map_range' (xs ys : Byte) (row : Nat → Byte) (k n : Nat) (cv : Canvas) :
    drawRows xs ys k ((List.range' k n).map row) cv =
      (List.range' k n).foldl (fun cv r => drawRow xs ys (row r) r cv) cv := by
  induction n generalizing k cv with
  | zero => rfl
  | succ n ih => exact ih (k + 1) (drawRow xs ys (row k) k cv)

/-- The sprite at `I` is drawn by inverting the pixels that it covers. -/
theorem drawRows_eq_foldl_invert (s : State) (x y : Reg) (n : Nat) (cv : Canvas) :
    drawRows (s.readV x) (s.readV y) 0 (s.mem.bytes s.base n) cv = (spritePixels s x y n).foldl Canvas.invert cv := by
  rw [Memory.bytes, List.range_eq_range', drawRows_map_range', spritePixels, List.foldl_flatMap, List.range_eq_range']
  simp only [drawRow_eq_foldl_invert]

/-- A `Dxyn` that completes has inverted the pixels that its sprite covers and written the collision to `V[F]` (R111). -/
theorem exec_drw_next {s t : State} {x y : Reg} {n : Nat} (h : exec (.drw x y n) s = .next t) :
    ∃ drawn : Canvas, drawn = (spritePixels s x y n).foldl Canvas.invert { fb := s.fb, collided := false } ∧
      t = ({ s with fb := drawn.fb }.writeV regF (flagByte drawn.collided)).advance := by
  obtain ⟨rows, hrows, ht⟩ := attempt_next h
  rcases memRead_cases s .load s.base n with ⟨-, ok⟩ | ⟨-, -, error⟩
  · cases ok.symm.trans hrows
    exact ⟨_, drawRows_eq_foldl_invert s x y n _, (Host.Outcome.next.inj ht).symm⟩
  · cases error.symm.trans hrows

/-- After a `Dxyn`, a pixel is inverted iff the sprite covers it (R113). -/
theorem pixel_of_exec_drw {s t : State} {x y : Reg} {n : Nat} (hn : n ≤ 32) (h : exec (.drw x y n) s = .next t) {d : Nat}
    (hd : d < 2048) : pixel t.fb d = (decide (d ∈ spritePixels s x y n) ^^ pixel s.fb d) := by
  obtain ⟨_, rfl, rfl⟩ := exec_drw_next h
  exact pixel_foldl_invert (nodup_spritePixels s x y hn) (fun _ => lt_of_mem_spritePixels) _ hd

/-- After a `Dxyn`, `V[F]` tells whether a pixel that the sprite covers was on (R113). -/
theorem readV_regF_of_exec_drw {s t : State} {x y : Reg} {n : Nat} (hn : n ≤ 32) (h : exec (.drw x y n) s = .next t) :
    t.readV regF = flagByte ((spritePixels s x y n).any (pixel s.fb)) := by
  obtain ⟨_, rfl, rfl⟩ := exec_drw_next h
  rw [State.readV_advance, State.readV_writeV_self,
    collided_foldl_invert (nodup_spritePixels s x y hn) (fun _ => lt_of_mem_spritePixels), Bool.false_or]

/-- A `Dxyn` writes neither memory nor `I` nor a register other than `V[F]`: drawn again with x and y other than F, its sprite
covers the same pixels. -/
theorem spritePixels_of_exec_drw {s t : State} {x y : Reg} {n : Nat} (hx : x ≠ regF) (hy : y ≠ regF)
    (h : exec (.drw x y n) s = .next t) : spritePixels t x y n = spritePixels s x y n := by
  obtain ⟨drawn, -, rfl⟩ := exec_drw_next h
  have same_row : rowPixels ({ s with fb := drawn.fb }.writeV regF (flagByte drawn.collided)).advance x y =
      rowPixels s x y := by
    funext r
    unfold rowPixels spriteBit destination
    rw [State.readV_advance, State.readV_advance, State.readV_writeV_of_ne _ _ hx, State.readV_writeV_of_ne _ _ hy]
    rfl
  rw [spritePixels, same_row, spritePixels]

/-! ## The same draw twice -/

/-- Settles O38: both draws invert the same pixels; where the first has inverted one, the second finds it on iff it was off. -/
theorem drawTwiceRestores : Obligations.DrawTwiceRestores := by
  intro s t u x y n hn hx hy hst htu
  have hn : n ≤ 32 := by omega
  have same := spritePixels_of_exec_drw hx hy hst
  have flag : u.readV regF = flagByte ((spritePixels s x y n).any fun d => !pixel s.fb d) := by
    rw [readV_regF_of_exec_drw hn htu, same]
    refine congrArg flagByte (any_eq_any_of_forall_mem fun d hd => ?_)
    rw [pixel_of_exec_drw hn hst (lt_of_mem_spritePixels hd), decide_eq_true hd, Bool.true_xor]
  have turned_on : (spritePixels s x y n).any (fun d => !pixel s.fb d) = true ↔
      ∃ d, Covers s x y n d ∧ pixel s.fb d = false := by
    simp [mem_spritePixels]
  refine ⟨framebuffer_ext fun d hd => ?_, fun h => ?_, fun h => ?_⟩
  · rw [pixel_of_exec_drw hn htu hd, same, pixel_of_exec_drw hn hst hd, ← Bool.xor_assoc, Bool.xor_self, Bool.false_xor]
  · rw [flag, turned_on.2 h]
    rfl
  · rw [flag, Bool.eq_false_iff.2 fun hany => h (turned_on.1 hany)]
    rfl

end Sys2Proof.Machine
end

section
/-! PROOFS. The timer instructions `Fx07`, `Fx15`, `Fx18`, and that no instruction reads `ST` (44_random_keys_timers.md R125
to R127): to give `ST` another value before an instruction is to give it that value after. -/

namespace Sys2Proof.Machine

/-- `s` with another value in `ST`. -/
def State.withST (v : Byte) (s : State) : State := { s with ST := v }

/-- The outcome `o`, with `f` done to its next state where it has one. -/
def mapNext (f : State → State) (o : Host.Outcome State Fault Refusal) : Host.Outcome State Fault Refusal :=
  match o with
  | .next t => .next (f t)
  | .fault e => .fault e
  | .refused r => .refused r

/-- What is done to the next state can be done after the checked operation: a fault has no next state. -/
theorem mapNext_attempt {α : Type} (f : State → State) (e : Except Fault α)
    (k : α → Host.Outcome State Fault Refusal) : mapNext f (attempt e k) = attempt e fun a => mapNext f (k a) := by
  cases e <;> rfl

theorem attempt_map {α β : Type} (g : α → β) (e : Except Fault α) (k : β → Host.Outcome State Fault Refusal) :
    attempt (e.map g) k = attempt e fun a => k (g a) := by
  cases e <;> rfl

section

variable (v : Byte) (s : State)

/-! ## The operations that check and then change the state -/

theorem State.push_withST : (s.withST v).push = s.push.map (State.withST v) := by
  rcases Nat.lt_or_ge s.sp.val 16 with hlt | hge
  · rw [push_ok hlt]
    exact push_ok (s := s.withST v) hlt
  · have hfull : s.sp.val = 16 := by omega
    rw [push_error hfull]
    exact push_error (s := s.withST v) hfull

theorem State.pop_withST : (s.withST v).pop = s.pop.map fun p => (p.1, p.2.withST v) := by
  rcases Nat.eq_zero_or_pos s.sp.val with h0 | hpos
  · rw [pop_error h0]
    exact pop_error (s := s.withST v) h0
  · rw [pop_ok hpos]
    exact pop_ok (s := s.withST v) hpos

theorem State.memWrite_withST (a : Nat) (b : List Byte) :
    (s.withST v).memWrite a b = (s.memWrite a b).map (State.withST v) := by
  unfold State.memWrite
  cases checkRange .store a b.length <;> rfl

/-! ## The instructions -/

theorem execRet_withST : execRet (s.withST v) = mapNext (State.withST v) (execRet s) := by
  rw [execRet, State.pop_withST, attempt_map, execRet, mapNext_attempt]
  rfl

theorem execCall_withST (nnn : BitVec 12) : execCall nnn (s.withST v) = mapNext (State.withST v) (execCall nnn s) := by
  rw [execCall, State.push_withST, attempt_map, execCall, mapNext_attempt]
  rfl

/-- A checked store that then advances. -/
theorem store_withST (a : Nat) (b : List Byte) :
    attempt ((s.withST v).memWrite a b) (fun t => .next t.advance) =
      mapNext (State.withST v) (attempt (s.memWrite a b) fun t => .next t.advance) := by
  rw [State.memWrite_withST, attempt_map, mapNext_attempt]
  rfl

theorem execLdVK_withST (x : Reg) : execLdVK x (s.withST v) = mapNext (State.withST v) (execLdVK x s) := by
  have same_key : (s.withST v).lowestKeyDown = s.lowestKeyDown := rfl
  unfold execLdVK
  rw [same_key]
  cases s.lowestKeyDown <;> rfl

/-- No instruction reads `ST`, and every one but `Fx18` carries it along: with another value there the outcome is the same, with
that value in its next state (R127). -/
theorem exec_withST {i : Instr} (hi : ∀ x, i ≠ .ldSTV x) :
    exec i (s.withST v) = mapNext (State.withST v) (exec i s) := by
  cases i with
  | ldSTV x => exact absurd rfl (hi x)
  | ret => exact execRet_withST v s
  | call nnn => exact execCall_withST v s nnn
  | ldVK x => exact execLdVK_withST v s x
  | ldB x => exact store_withST v s ..
  | storeRegs x => exact store_withST v s ..
  | drw | skp | sknp | loadRegs =>
    symm
    exact mapNext_attempt ..
  | _ => rfl

/-- `Fx18` overwrites `ST`, so the value there before makes no difference at all. -/
theorem exec_ldSTV_withST (x : Reg) : exec (.ldSTV x) (s.withST v) = exec (.ldSTV x) s := rfl

end

/-! ## The obligation -/

/-- A state that an instruction completes in is, but for `ST`, the one it completes in with another value in `ST`. -/
theorem exec_next_withST {i : Instr} {s t : State} (v : Byte) (h : exec i s = .next t) :
    ∃ u, exec i (s.withST v) = .next u ∧ u.withST t.ST = t := by
  by_cases hi : ∃ x, i = .ldSTV x
  · obtain ⟨x, rfl⟩ := hi
    exact ⟨t, (exec_ldSTV_withST v s x).trans h, rfl⟩
  · refine ⟨t.withST v, ?_, rfl⟩
    rw [exec_withST v s fun x e => hi ⟨x, e⟩, h]
    rfl

/-- Settles O43: each of the three writes one element, and the tick counts down the timers and no register; the last clause
because no instruction reads `ST`. -/
theorem timerInstructions : Obligations.TimerInstructions := by
  intro s x
  have copied : (s.writeV x s.DT).advance.readV x = s.DT := s.readV_writeV_self x s.DT
  exact ⟨decodeWord_encode (i := .ldVDT x) rfl, decodeWord_encode (i := .ldDTV x) rfl, decodeWord_encode (i := .ldSTV x) rfl,
    ⟨_, rfl, copied, copied, countDown_toNat s.DT, rfl, frame_writeV_advance s x s.DT⟩,
    ⟨_, rfl, rfl, countDown_toNat (s.readV x), rfl, fun _ _ => rfl, by simp⟩,
    ⟨_, rfl, rfl, countDown_toNat (s.readV x), rfl, fun _ _ => rfl, by simp⟩,
    fun _ _ v h => exec_next_withST v h⟩

end Sys2Proof.Machine
end

section
/-! PROOFS. The cycle as a function (45_host_operations.md R132, R134): it runs the instruction decoded at `pc`, also one that
`withFetchWord` has placed there, and its two inputs from outside, the keys and the random byte, make no difference to the
instructions that do not read them. -/

namespace Sys2Proof.Machine

/-! ## The instruction that a cycle runs -/

/-- A cycle that executes `i` is `i` and then the tick, whatever the outcome. -/
theorem step_eq_endCycle_of_executes {s : State} {i : Instr} (hi : s.executes i) : step s = endCycle (exec i s) := by
  obtain ⟨w, hw, hd⟩ := hi
  rw [step, cycle, hw, attempt_ok, execWord_ok hd]

/-- Two bytes that decode to `i` are, put together, a word that decodes to `i`. -/
theorem decodeWord_of_decode {hi lo : Byte} {i : Instr} {rest : List Byte} (h : decode [hi, lo] = .ok (i, rest)) :
    decodeWord (wordOfBytes hi lo) = .ok i := by
  rw [← bytesOfWord_wordOfBytes hi lo, ← List.append_nil (bytesOfWord _), decode_bytesOfWord] at h
  cases hd : decodeWord (wordOfBytes hi lo) with
  | ok j =>
    rw [hd] at h
    cases h
    rfl
  | error e =>
    rw [hd] at h
    cases h

/-- Settles O13: the fetch reads the two bytes, so the cycle executes the instruction they decode to. -/
theorem stepRunsDecodedInstruction : Obligations.StepRunsDecodedInstruction := by
  intro s i hpc hdecode
  have run := step_eq_endCycle_of_executes ⟨_, fetch_ok hpc, decodeWord_of_decode hdecode⟩
  refine ⟨fun t ht => ?_, fun f hf => ?_⟩
  · rw [run, ht]
    rfl
  · rw [run, hf, endCycle_fault]

/-! ## A word placed at `pc` -/

/-- The word decoded from an entry of the opcode table is the entry as a 16-bit word. -/
theorem decodeWord_of_decodeTableWord {n w : Nat} {i : Instr} (h : decodeTableWord n w = some i) :
    decodeWord (BitVec.ofNat 16 (w % 2 ^ n)) = .ok i := by
  unfold decodeTableWord at h
  split at h
  · next j _ hdecode =>
    cases h
    rw [← wordOfBytes_bytesOfWord (BitVec.ofNat 16 (w % 2 ^ n))]
    exact decodeWord_of_decode hdecode
  · cases h

/-- The two bytes of a word written where `pc` then points are fetched as that word. -/
theorem fetch_putBytes_bytesOfWord {s : State} (hm : s.mem.wf) {place : Word} (hplace : place.toNat + 1 < 4096) (w : Word) :
    { s with pc := place, mem := s.mem.putBytes place.toNat (bytesOfWord w) }.fetch = .ok w := by
  refine (fetch_ok (s := { s with pc := place, mem := _ }) hplace).trans ?_
  simp [Memory.byte_putBytes hm.1, bytesOfWord, wordOfBytes_bytesOfWord]

/-- Settles O14: the word stands where a fetch can start, at `pc` or at 0x200, and is fetched from there. -/
theorem placedWordIsRun : Obligations.PlacedWordIsRun := by
  intro s w i hm hi
  refine ⟨_, fetch_putBytes_bytesOfWord hm ?_ _, decodeWord_of_decodeTableWord hi⟩
  split
  · assumption
  · decide

/-! ## The inputs of a cycle -/

/-- `s` with what a cycle takes from outside changed: the keys by `g`, and by `d` the count that selects the next random byte
(log 1). -/
def State.withInputs (g : Vector Bool 16 → Vector Bool 16) (d : Nat → Nat) (s : State) : State :=
  { s with key := g s.key, draws := d s.draws }

/-- An instruction makes no use of an input that `g` or `d` changes: `Cxkk` reads the random byte, `Ex9E`, `ExA1` and `Fx0A`
read the keys, and the others neither (R134). -/
def IgnoresInputs (g : Vector Bool 16 → Vector Bool 16) (d : Nat → Nat) : Instr → Prop
  | .rnd _ _ => d = id
  | .skp _ | .sknp _ | .ldVK _ => g = id
  | _ => True

section

variable {g : Vector Bool 16 → Vector Bool 16} {d : Nat → Nat} (s : State)

/-! ### The operations that check and then change the state: both their branches carry the inputs along -/

theorem State.push_withInputs : (s.withInputs g d).push = s.push.map (State.withInputs g d) := by
  symm
  exact apply_dite ..

theorem State.pop_withInputs : (s.withInputs g d).pop = s.pop.map fun p => (p.1, p.2.withInputs g d) := by
  symm
  exact apply_dite ..

theorem State.memWrite_withInputs (a : Nat) (b : List Byte) :
    (s.withInputs g d).memWrite a b = (s.memWrite a b).map (State.withInputs g d) := by
  unfold State.memWrite
  cases checkRange .store a b.length <;> rfl

/-! ### The instructions and the cycle -/

/-- A checked operation that carries the inputs along, and then a change of the state that does so. -/
theorem attempt_map_withInputs {α : Type} {f : α → α} {e e' : Except Fault α} {k : α → State} (he : e' = e.map f)
    (hk : ∀ a, k (f a) = (k a).withInputs g d) :
    attempt e' (fun a => .next (k a)) = mapNext (State.withInputs g d) (attempt e fun a => .next (k a)) := by
  rw [he, attempt_map, mapNext_attempt]
  simp only [hk, mapNext]

/-- An instruction carries the inputs along that it makes no use of: its outcome is the same, with those inputs in its next
state. -/
theorem exec_withInputs {i : Instr} (hi : IgnoresInputs g d i) :
    exec i (s.withInputs g d) = mapNext (State.withInputs g d) (exec i s) := by
  cases i with
  | rnd x kk =>
    obtain rfl : d = id := hi
    rfl
  | skp | sknp =>
    obtain rfl : g = id := hi
    symm
    exact mapNext_attempt ..
  | ldVK x =>
    obtain rfl : g = id := hi
    show execLdVK x _ = mapNext _ (execLdVK x s)
    have same_key : (s.withInputs id d).lowestKeyDown = s.lowestKeyDown := rfl
    rw [execLdVK, execLdVK, same_key]
    cases s.lowestKeyDown <;> rfl
  | ret => exact attempt_map_withInputs s.pop_withInputs fun _ => rfl
  | call nnn => exact attempt_map_withInputs s.push_withInputs fun _ => rfl
  | ldB | storeRegs => exact attempt_map_withInputs (s.memWrite_withInputs ..) fun _ => rfl
  | drw | loadRegs =>
    symm
    exact mapNext_attempt ..
  | _ => rfl

/-- The tick leaves the inputs alone. -/
theorem endCycle_mapNext_withInputs (o : Host.Outcome State Fault Refusal) :
    endCycle (mapNext (State.withInputs g d) o) = mapNext (State.withInputs g d) (endCycle o) := by
  cases o <;> rfl

/-- A cycle carries the inputs along that the instruction it executes makes no use of. -/
theorem step_withInputs (h : ∀ i, s.executes i → IgnoresInputs g d i) :
    step (s.withInputs g d) = mapNext (State.withInputs g d) (step s) := by
  have same_fetch : (s.withInputs g d).fetch = s.fetch := rfl
  rw [step, step, cycle, cycle, same_fetch]
  cases hw : s.fetch with
  | error f => rfl
  | ok w =>
    rw [attempt_ok, attempt_ok, ← endCycle_mapNext_withInputs]
    cases hd : decodeWord w with
    | ok i => rw [execWord_ok hd, execWord_ok hd, exec_withInputs s (h i ⟨w, hw, hd⟩)]
    | error e => rw [execWord_error hd, execWord_error hd]; rfl

variable {s} {t : State} (h : ∀ i, s.executes i → IgnoresInputs g d i)

include h

theorem step_next_withInputs (ht : step s = .next t) : step (s.withInputs g d) = .next (t.withInputs g d) := by
  rw [step_withInputs s h, ht, mapNext]

theorem step_fault_withInputs {f : Fault} (hf : step s = .fault f) : step (s.withInputs g d) = .fault f := by
  rw [step_withInputs s h, hf, mapNext]

/-- Inputs that are those the cycle begins with are those it ends with: it carries them along. -/
theorem withInputs_eq_self_of_step (hs : s.withInputs g d = s) (ht : step s = .next t) : t.withInputs g d = t := by
  have carried := step_next_withInputs h ht
  rw [hs, ht] at carried
  exact (Host.Outcome.next.inj carried).symm

end

/-- Settles O16: the cycle carries any count of draws along, so also the one it began with, which is then the one it ends
with. -/
theorem randomByteReadOnlyByRnd : Obligations.RandomByteReadOnlyByRnd := by
  intro s n no_rnd
  have ignores : ∀ m i, s.executes i → IgnoresInputs id (fun _ => m) i := by
    intro m i hi
    cases i with
    | rnd x kk => exact absurd hi (no_rnd x kk)
    | skp | sknp | ldVK => rfl
    | _ => trivial
  refine ⟨fun t ht => ⟨?_, step_next_withInputs (ignores n) ht⟩, fun f hf => step_fault_withInputs (ignores n) hf⟩
  exact (congrArg State.draws (withInputs_eq_self_of_step (ignores s.draws) rfl ht)).symm

/-- Settles O17: the cycle carries any keys along, so also those it began with, which are then those it ends with. -/
theorem keysReadOnlyByKeyInstructions : Obligations.KeysReadOnlyByKeyInstructions := by
  intro s k hno
  simp only [forall_and] at hno
  obtain ⟨no_skp, no_sknp, no_ldVK⟩ := hno
  have ignores : ∀ l i, s.executes i → IgnoresInputs (fun _ => l) id i := by
    intro l i hi
    cases i with
    | rnd => rfl
    | skp x => exact absurd hi (no_skp x)
    | sknp x => exact absurd hi (no_sknp x)
    | ldVK x => exact absurd hi (no_ldVK x)
    | _ => trivial
  refine ⟨fun t ht => ⟨?_, step_next_withInputs (ignores k) ht⟩, fun f hf => step_fault_withInputs (ignores k) hf⟩
  exact (congrArg State.key (withInputs_eq_self_of_step (ignores s.key) rfl ht)).symm

end Sys2Proof.Machine
end

section
/-! PROOFS. The operations of the host between cycles: loading a program, the key events and reading the display
(45_host_operations.md R133, R135 to R137). -/

namespace Sys2Proof.Machine

/-! ## Loading a program -/

theorem State.loadProgram_emptyProgram (s : State) {bytes : List Byte} (h : bytes.length = 0) :
    s.loadProgram bytes = .error .emptyProgram := if_pos h

theorem State.loadProgram_tooLarge (s : State) {bytes : List Byte} (h : 3584 < bytes.length) :
    s.loadProgram bytes = .error .programTooLarge := by
  have nonempty : bytes.length ≠ 0 := by omega
  rw [State.loadProgram, if_neg nonempty, if_pos h]

theorem State.loadProgram_ok (s : State) {bytes : List Byte} (hpos : 0 < bytes.length) (hfits : bytes.length ≤ 3584) :
    s.loadProgram bytes = .ok { s with mem := s.mem.putBytes 0x200 bytes, pc := 0x200 } := by
  have nonempty : bytes.length ≠ 0 := by omega
  rw [State.loadProgram, if_neg nonempty, if_neg (Nat.not_lt.2 hfits)]
  rfl

theorem perform_loadProgram_ok (F : Config.Font) {s t : State} {bytes : List Byte} (h : s.loadProgram bytes = .ok t) :
    perform F (.loadProgram bytes) s = (t, .ok) := by
  rw [perform, h]

theorem perform_loadProgram_error (F : Config.Font) {s : State} {bytes : List Byte} {e : LoadError}
    (h : s.loadProgram bytes = .error e) : perform F (.loadProgram bytes) s = (s, .loadError e) := by
  rw [perform, h]

/-- Settles O56: the two errors by the length, and else the image by the law of writing a list of bytes, inside it and
outside. -/
theorem loadProgram : Obligations.LoadProgram := by
  intro F s bytes hm
  refine ⟨fun h => perform_loadProgram_error F (s.loadProgram_emptyProgram h),
    fun h => perform_loadProgram_error F (s.loadProgram_tooLarge h),
    fun hpos hfits => ⟨_, perform_loadProgram_ok F (s.loadProgram_ok hpos hfits), rfl, fun j hj => ?_, ?_⟩⟩
  · have inside : 0x200 ≤ 0x200 + j ∧ 0x200 + j < 0x200 + bytes.length := by omega
    rw [Memory.byte_putBytes hm.1, if_pos inside, Nat.add_sub_cancel_left, List.getD_eq_getElem _ _ hj]
  · have outside : ∀ a, ¬(0x200 ≤ a ∧ a < 0x200 + bytes.length) → (s.mem.putBytes 0x200 bytes).byte a = s.mem.byte a :=
      fun a ha => by rw [Memory.byte_putBytes hm.1, if_neg ha]
    exact ⟨fun _ _ => rfl, fun _ => rfl, fun _ => ⟨rfl, rfl⟩, outside, fun _ => rfl, fun _ => rfl, fun _ => rfl, rfl,
      fun _ => rfl⟩

/-! ## Key events -/

/-- Setting the level of a key, no key among the sixteen included (R135, R136). -/
theorem State.key_setKey (s : State) (k : Nat) (down : Bool) (j : Fin 16) :
    (s.setKey k down).key[j.val] = if j.val = k then down else s.key[j.val] := by
  unfold State.setKey
  split
  · simp only [Vector.getElem_set, eq_comm]
  · have other : j.val ≠ k := by omega
    rw [if_neg other]

theorem State.setKey_of_ge (s : State) {k : Nat} (hk : 16 ≤ k) (down : Bool) : s.setKey k down = s :=
  dif_neg (Nat.not_lt.2 hk)

/-- With its old keys back, the state is the old one: nothing else has changed. -/
theorem State.setKey_restore (s : State) (k : Nat) (down : Bool) : { s.setKey k down with key := s.key } = s := by
  unfold State.setKey
  split <;> rfl

/-- Settles O57: both events set the level of one key. -/
theorem keyEvents : Obligations.KeyEvents := by
  intro F s k
  refine ⟨s.key_setKey k true, s.key_setKey k false, ?_, fun hk => ⟨?_, ?_⟩⟩
  · rintro t (rfl | rfl)
    · exact s.setKey_restore k true
    · exact s.setKey_restore k false
  · exact congrArg (·, HostResult.none) (s.setKey_of_ge hk true)
  · exact congrArg (·, HostResult.none) (s.setKey_of_ge hk false)

/-! ## Reading the display -/

@[simp] theorem State.length_display (s : State) : s.display.length = 2048 := by
  simp [State.display]

/-- The pixels come in the order of their indices. -/
theorem State.getElem?_display (s : State) {d : Nat} (h : d < 2048) : s.display[d]? = some (pixel s.fb d) := by
  simp [State.display, h]

/-- The pixel of index `y*64 + x` is bit `x` of row `y` (log 8). -/
theorem pixel_row_column (fb : Framebuffer) (x : Fin 64) (y : Fin 32) :
    pixel fb (y.val * 64 + x.val) = (fb[y.val]).getLsbD x.val := by
  have row : (y.val * 64 + x.val) / 64 = y.val := by omega
  have column : (y.val * 64 + x.val) % 64 = x.val := by omega
  rw [pixel_eq fb (by omega)]
  simp only [row, column]

/-- Settles O58: the pixels in the order of their indices, each by its row and column. -/
theorem displayReturnsPixels : Obligations.DisplayReturnsPixels := by
  intro F s
  refine ⟨s.display, rfl, s.length_display, fun x y => ?_⟩
  rw [State.getElem?_display s (by omega), pixel_row_column]

end Sys2Proof.Machine
end

section
/-! PROOFS. The faults (60_exceptions.md R140, R145): an instruction takes exactly the fault that the table names, whose
conditions read `I`, `sp` and `V` alone, and the fetch reads `pc` and `mem` alone. -/

namespace Sys2Proof.Machine

/-! ## The fault of a checked operation -/

section

variable {α : Type} {f : Fault}

/-- A checked operation followed by a next state faults exactly with its check. -/
theorem attempt_next_eq_fault_iff {e : Except Fault α} {k : α → State} :
    attempt e (fun a => .next (k a)) = .fault f ↔ e = .error f := by
  cases e <;> simp

/-- A check that takes the fault `g` under the condition `c`, and otherwise none, has the fault of that row of the table. -/
theorem eq_error_iff_of_row {e : Except Fault α} {c : Prop} [Decidable c] {g : Fault} (goes_on : ¬c → ∃ a, e = .ok a)
    (faults : c → e = .error g) : e = .error f ↔ (if c then some g else none) = some f := by
  by_cases hc : c
  · simp [faults hc, hc]
  · obtain ⟨a, ha⟩ := goes_on hc
    simp [ha, hc]

/-- A function applied to the value of a checked operation leaves its fault alone. -/
theorem map_eq_error_iff {β : Type} {e : Except Fault α} {g : α → β} : e.map g = .error f ↔ e = .error f := by
  cases e <;> simp [Except.map]

/-- A read or a write of `n` bytes has the fault of its range check, for any condition that says the access leaves memory. -/
theorem checkedAccess_eq_error_iff {kind : AccessKind} {addr n : Nat} {g : Unit → α} {c : Prop} [Decidable c]
    (hc : c ↔ 0 < n ∧ 4096 < addr + n) : (checkRange kind addr n).map g = .error f ↔
      (if c then some (.addressOutOfRange kind (max addr 4096)) else none) = some f := by
  refine map_eq_error_iff.trans ?_
  rcases checkRange_cases kind addr n with ⟨hrange, ok⟩ | ⟨hn, hout, error⟩
  · exact eq_error_iff_of_row (fun _ => ⟨_, ok⟩) fun h => by have := hc.1 h; omega
  · exact eq_error_iff_of_row (fun h => absurd (hc.2 ⟨hn, hout⟩) h) fun _ => error

theorem keyDownAt_eq_error_iff {s : State} {k : Byte} :
    s.keyDownAt k = .error f ↔ (if k.toNat ≥ 16 then some (.keyIndexOutOfRange k) else none) = some f :=
  eq_error_iff_of_row (fun h => ⟨_, keyDownAt_ok (Nat.not_le.1 h)⟩) keyDownAt_error

end

/-! ## The fault of an instruction and of a cycle -/

/-- `Fx0A` waits or writes, and never faults (R140). -/
theorem execLdVK_ne_fault (x : Reg) (s : State) (f : Fault) : execLdVK x s ≠ .fault f := by
  unfold execLdVK
  split <;> nofun

/-- An instruction faults as the table of R140 says, with that fault, and otherwise not. -/
theorem exec_eq_fault_iff {i : Instr} {s : State} {f : Fault} : exec i s = .fault f ↔ tableFault i s = some f := by
  cases i with
  | ret => exact attempt_next_eq_fault_iff.trans (eq_error_iff_of_row (fun h => ⟨_, pop_ok (by omega)⟩) pop_error)
  | call nnn => exact attempt_next_eq_fault_iff.trans (eq_error_iff_of_row (fun h => ⟨_, push_ok (by omega)⟩) push_error)
  | skp x => exact attempt_next_eq_fault_iff.trans keyDownAt_eq_error_iff
  | sknp x => exact attempt_next_eq_fault_iff.trans keyDownAt_eq_error_iff
  | drw x y n => exact attempt_next_eq_fault_iff.trans (checkedAccess_eq_error_iff (by rw [State.base]; omega))
  | loadRegs x => exact attempt_next_eq_fault_iff.trans (checkedAccess_eq_error_iff (by rw [State.base]; omega))
  | ldB x =>
    have digits : (decimalDigits (s.readV x)).length = 3 := rfl
    exact attempt_next_eq_fault_iff.trans (checkedAccess_eq_error_iff (by rw [digits, State.base]; omega))
  | storeRegs x =>
    exact attempt_next_eq_fault_iff.trans (checkedAccess_eq_error_iff (by rw [State.length_readGroup, State.base]; omega))
  | ldVK x => exact iff_of_false (execLdVK_ne_fault x s f) nofun
  | _ => exact iff_of_false nofun nofun

/-- The end of the cycle adds no fault. -/
theorem endCycle_eq_fault {o : Host.Outcome State Fault Refusal} {f : Fault} (h : endCycle o = .fault f) : o = .fault f := by
  cases o with
  | fault g => exact h
  | next | refused => cases h

/-- A cycle faults with its fetch or with the instruction it executes; on an unmatched word it does not. -/
theorem step_eq_fault_iff {s : State} {f : Fault} :
    step s = .fault f ↔ s.fetch = .error f ∨ ∃ i, s.executes i ∧ tableFault i s = some f := by
  constructor
  · intro h
    refine (attempt_fault h).imp_right fun ⟨w, hw, hrun⟩ => ?_
    cases hd : decodeWord w with
    | ok i =>
      rw [execWord_ok hd] at hrun
      exact ⟨i, ⟨w, hw, hd⟩, exec_eq_fault_iff.1 (endCycle_eq_fault hrun)⟩
    | error e =>
      rw [execWord_error hd] at hrun
      cases hrun
  · rintro (herror | ⟨i, hi, hf⟩)
    · exact step_of_fetch_error herror
    · rw [step_eq_endCycle_of_executes hi, exec_eq_fault_iff.2 hf, endCycle_fault]

/-! ## What the faults depend on -/

theorem fetch_congr {s t : State} (hpc : t.pc = s.pc) (hmem : t.mem = s.mem) : t.fetch = s.fetch := by
  rw [State.fetch, State.fetch, hpc, hmem]

theorem tableFault_congr {s t : State} (hI : t.I = s.I) (hsp : t.sp = s.sp) (hV : t.V = s.V) (i : Instr) :
    tableFault i t = tableFault i s := by
  have hread : ∀ x, t.readV x = s.readV x := fun x => by rw [State.readV, State.readV, hV]
  cases i <;> simp only [tableFault, hI, hsp, hread]

/-- Settles O54: the fetch, and so the instruction executed, depends on `pc` and `mem`, and the table on `I`, `sp` and `V`. -/
theorem faultConditionsDependOnFiveElements : Obligations.FaultConditionsDependOnFiveElements := by
  intro s t f hpc hmem hI hsp hV
  simp only [step_eq_fault_iff, State.executes, fetch_congr hpc hmem, tableFault_congr hI hsp hV]

end Sys2Proof.Machine
end

section
/-! PROOFS. The decay of the timers over a run (60_exceptions.md R150, R151). -/

namespace Sys2Proof.Machine

/-- `timer` is counted down by the tick, and no instruction writes it but those of which `P` holds. -/
structure CountsDown (timer : State → Byte) (P : Instr → Prop) : Prop where
  tick : ∀ s, timer s.tick = countDown (timer s)
  advance : ∀ s, timer s.advance = timer s
  writers : ∀ i s t, exec i s = .next t → timer t ≠ timer s → P i

theorem countsDown_DT : CountsDown State.DT fun i => ∃ x, i = .ldDTV x where
  tick := State.tick_DT
  advance := State.advance_DT
  writers i s t h := by
    obtain ⟨-, -, -, hDT, -⟩ := writersOfEachElement i s t h
    exact hDT

theorem countsDown_ST : CountsDown State.ST fun i => ∃ x, i = .ldSTV x where
  tick := State.tick_ST
  advance := State.advance_ST
  writers i s t h := by
    obtain ⟨-, -, -, -, hST, -⟩ := writersOfEachElement i s t h
    exact hST

section

variable {timer : State → Byte} {P : Instr → Prop} (counts : CountsDown timer P)

include counts

/-- A cycle that executes no writer of the timer counts it down once, also a cycle on an unmatched word (log 4). -/
theorem CountsDown.toNat_step {s t : State} (h : step s = .next t) (avoids : ∀ i, s.executes i → ¬P i) :
    (timer t).toNat = (timer s).toNat - 1 := by
  obtain ⟨w, u, hw, rfl, hrun⟩ := step_eq_next h
  have kept : timer u = timer s := by
    rcases hrun with ⟨i, hi, hu⟩ | ⟨-, rfl⟩
    · by_contra hne
      exact avoids i ⟨w, hw, hi⟩ (counts.writers i s u hu hne)
    · exact counts.advance s
  rw [counts.tick, countDown_toNat, kept]

/-- The decay law for one timer, by induction on the number of cycles (R151). -/
theorem CountsDown.toNat_of_runsAvoiding {n : Nat} {s t : State} (h : RunsAvoiding P n s t) :
    (timer t).toNat = (timer s).toNat - n := by
  induction n generalizing s with
  | zero => exact h ▸ rfl
  | succ n ih =>
    obtain ⟨u, hu, avoids, hrest⟩ := h
    rw [ih hrest, counts.toNat_step hu avoids, Nat.sub_sub, Nat.add_comm]

end

/-- Settles O55: the decay law for each timer with its one writer. -/
theorem timersDecay : Obligations.TimersDecay :=
  fun _ _ _ => ⟨countsDown_DT.toNat_of_runsAvoiding, countsDown_ST.toNat_of_runsAvoiding⟩

end Sys2Proof.Machine
end

section
/-! PROOFS. The table of faults as a whole (60_exceptions.md R140, R144), and that a faulting cycle leaves the state as it was
and faults the same again (R143, R145). -/

namespace Sys2Proof.Machine

/-! ## The table -/

/-- An instruction to which the table gives no fault completes: it is not refused either. -/
theorem exec_next_of_tableFault_none {i : Instr} {s : State} (h : tableFault i s = none) : ∃ t, exec i s = .next t := by
  cases ho : exec i s with
  | next t => exact ⟨t, rfl⟩
  | fault f => cases h.symm.trans (exec_eq_fault_iff.1 ho)
  | refused r => exact absurd ho (exec_ne_refused i s r)

/-- Settles O52: an instruction takes the fault of the table, and one without a fault there completes. -/
theorem faultsExactlyAsTabulated : Obligations.FaultsExactlyAsTabulated :=
  fun _ _ => ⟨fun _ => exec_eq_fault_iff.2, exec_next_of_tableFault_none⟩

/-! ## The cycle that faults -/

theorem perform_step_fault (F : Config.Font) {s : State} {f : Fault} (h : step s = .fault f) :
    perform F .step s = (s, .fault f) := by
  rw [perform, h]

/-- A key event changes none of the elements that the fault conditions read (R145). -/
theorem step_setKey_fault {s : State} {f : Fault} (h : step s = .fault f) (k : Nat) (down : Bool) :
    step (s.setKey k down) = .fault f := by
  unfold State.setKey
  split
  · refine (faultConditionsDependOnFiveElements s _ f ?_ ?_ ?_ ?_ ?_).1 h <;> rfl
  · exact h

/-- Settles O53: the host keeps the state of a faulting cycle, and the fault conditions do not read the keys. -/
theorem faultLeavesStateAndRepeats : Obligations.FaultLeavesStateAndRepeats := fun F _ _ k h =>
  ⟨perform_step_fault F h, congrArg Prod.snd (perform_step_fault F (step_setKey_fault h k true)),
    congrArg Prod.snd (perform_step_fault F (step_setKey_fault h k false))⟩

end Sys2Proof.Machine
end

section
/-! PROOFS. The call and the return (40_flow_and_skips.md R71, R73): the entry they write or pop, and their faults. -/

namespace Sys2Proof.Machine

/-- A jump with the call stack changed keeps everything else. -/
theorem frame_callStack_jump (s : State) (stack : Vector Word 16) (sp : Fin 17) (target : Word) :
    Frame.holds { callStack := true } s ({ s with stack := stack, sp := sp }.jump target) :=
  ⟨fun _ _ => rfl, by simp⟩

/-- Settles O21: below 16 the call writes entry `sp` and no other; at 16 the fault is that of the table. -/
theorem callPushesOrOverflows : Obligations.CallPushesOrOverflows := by
  refine fun s nnn => ⟨fun hsp => ?_, fun hsp => exec_eq_fault_iff.2 (if_pos hsp)⟩
  have pushed : ∀ k : Fin 16, (s.stack.set s.sp.val s.pc)[k.val] = if k.val = s.sp.val then s.pc else s.stack[k.val] :=
    fun k => by simp only [Vector.getElem_set, eq_comm]
  exact ⟨_, exec_call_next (k := ⟨s.sp.val, hsp⟩) rfl nnn, pushed, rfl, toNat_zextAddr nnn, frame_callStack_jump ..⟩

/-- Settles O22: with `k + 1` stacked the return reads entry `k` and writes none; at 0 the fault is that of the table. -/
theorem returnPopsOrUnderflows : Obligations.ReturnPopsOrUnderflows := fun _ =>
  ⟨fun _ hk => ⟨_, exec_ret_next hk, rfl, rfl, rfl, frame_callStack_jump ..⟩, fun hsp => exec_eq_fault_iff.2 (if_pos hsp)⟩

end Sys2Proof.Machine
end

section
/-! PROOFS. The arithmetic that writes a flag (41_alu.md R80, R87 to R92): carry, not-borrow and the bit shifted out, and which
of the two writes remains where `x` is F. -/

namespace Sys2Proof.Machine

/-! ## A result and a flag -/

theorem frame_writeResultThenFlag_advance (s : State) (x : Reg) (v : Byte) (c : Bool) :
    Frame.holds { regs := [x, regF] } s (s.writeResultThenFlag x v c).advance := by
  refine ⟨fun r hr => ?_, by simp⟩
  obtain ⟨hx, hF⟩ : r ≠ x ∧ r ≠ regF := by simpa using hr
  rw [State.readV_advance, State.readV_writeResultThenFlag, if_neg hF, if_neg hx]

theorem frame_writeFlagThenResult_advance (s : State) (x : Reg) (v : Byte) (c : Bool) :
    Frame.holds { regs := [x, regF] } s (s.writeFlagThenResult x v c).advance := by
  refine ⟨fun r hr => ?_, by simp⟩
  obtain ⟨hx, hF⟩ : r ≠ x ∧ r ≠ regF := by simpa using hr
  rw [State.readV_advance, State.readV_writeFlagThenResult, if_neg hx, if_neg hF]

section

variable {s : State} {o : Host.Outcome State Fault Refusal} {x : Reg} {v : Byte} {c : Bool} {result flag : Nat}

/-- An instruction that writes a result and then a flag: the flag stands in `V[F]` whatever `x` is, the result in `V[x]`
unless `x` is F. -/
theorem completes_writeResultThenFlag (ho : o = .next (s.writeResultThenFlag x v c).advance)
    (hflag : (flagByte c).toNat = flag) (hresult : v.toNat = result) :
    Completes o fun t => (t.readV regF).toNat = flag ∧ (x ≠ regF → (t.readV x).toNat = result) ∧
      t.pc = s.pc + 2 ∧ Frame.holds { regs := [x, regF] } s t := by
  refine ⟨_, ho, ?_, fun hx => ?_, rfl, frame_writeResultThenFlag_advance ..⟩
  · rw [State.readV_advance, State.readV_writeResultThenFlag, if_pos rfl, hflag]
  · rw [State.readV_advance, State.readV_writeResultThenFlag, if_neg hx, if_pos rfl, hresult]

/-- An instruction that writes a flag and then a result: the result stands in `V[x]` whatever `x` is, the flag in `V[F]`
unless `x` is F. -/
theorem completes_writeFlagThenResult (ho : o = .next (s.writeFlagThenResult x v c).advance)
    (hresult : v.toNat = result) (hflag : (flagByte c).toNat = flag) :
    Completes o fun t => (t.readV x).toNat = result ∧ (x ≠ regF → (t.readV regF).toNat = flag) ∧
      t.pc = s.pc + 2 ∧ Frame.holds { regs := [x, regF] } s t := by
  refine ⟨_, ho, ?_, fun hx => ?_, rfl, frame_writeFlagThenResult_advance ..⟩
  · rw [State.readV_advance, State.readV_writeFlagThenResult, if_pos rfl, hresult]
  · rw [State.readV_advance, State.readV_writeFlagThenResult, if_neg hx.symm, if_pos rfl, hflag]

end

/-! ## The flags as numbers -/

theorem toNat_flagByte_decide (p : Prop) [Decidable p] : (flagByte (decide p)).toNat = if p then 1 else 0 := by
  by_cases hp : p <;> simp [flagByte, hp]

/-- A bit of a byte, as a flag, is the digit of that weight. -/
theorem toNat_flagByte_getLsbD (a : Byte) (j : Nat) : (flagByte (a.getLsbD j)).toNat = a.toNat / 2 ^ j % 2 := by
  rw [BitVec.getLsbD, Nat.testBit_eq_decide_div_mod_eq, toNat_flagByte_decide]
  split <;> omega

theorem toNat_flagByte_bitOutLow (a : Byte) : (flagByte (bitOutLow a)).toNat = a.toNat % 2 := by
  rw [bitOutLow, toNat_flagByte_getLsbD, Nat.pow_zero, Nat.div_one]

theorem toNat_flagByte_bitOutHigh (a : Byte) : (flagByte (bitOutHigh a)).toNat = a.toNat / 128 := by
  have below : a.toNat / 128 < 2 := Nat.div_lt_of_lt_mul a.isLt
  rw [bitOutHigh, toNat_flagByte_getLsbD]
  exact Nat.mod_eq_of_lt below

/-! ## The results as numbers -/

/-- The difference of two bytes, with 256 added before it is reduced so that it does not go below 0. -/
theorem toNat_sub_byte (a b : Byte) : (a - b).toNat = (a.toNat + 256 - b.toNat) % 256 := by
  have hb := b.isLt
  rw [BitVec.toNat_sub]
  omega

theorem toNat_ushiftRight_one (a : Byte) : (a >>> 1).toNat = a.toNat / 2 := by
  rw [BitVec.toNat_ushiftRight, Nat.shiftRight_eq_div_pow, Nat.pow_one]

theorem toNat_shiftLeft_one (a : Byte) : (a <<< 1).toNat = a.toNat * 2 % 256 := by
  rw [BitVec.toNat_shiftLeft, Nat.shiftLeft_eq, Nat.pow_one]

/-! ## The instructions -/

/-- Settles O26: the carry is the comparison of the sum with 255, and the sum is reduced modulo 256. -/
theorem addWithCarry : Obligations.AddWithCarry := fun _ _ _ =>
  completes_writeResultThenFlag rfl (toNat_flagByte_decide _) (BitVec.toNat_add _ _)

/-- Settles O27: each flag is the comparison of minuend and subtrahend, which `8xy7` exchanges. -/
theorem subtractWithNotBorrow : Obligations.SubtractWithNotBorrow := fun _ _ _ =>
  ⟨completes_writeResultThenFlag rfl (toNat_flagByte_decide _) (toNat_sub_byte _ _),
    completes_writeResultThenFlag rfl (toNat_flagByte_decide _) (toNat_sub_byte _ _)⟩

/-- Settles O28: a shift halves or doubles the number, and the bit shifted out is its lowest or highest digit. -/
theorem shiftsByOne : Obligations.ShiftsByOne := fun _ _ =>
  ⟨completes_writeFlagThenResult rfl (toNat_ushiftRight_one _) (toNat_flagByte_bitOutLow _),
    completes_writeFlagThenResult rfl (toNat_shiftLeft_one _) (toNat_flagByte_bitOutHigh _)⟩

end Sys2Proof.Machine
end

section
/-! PROOFS. The accesses to memory (20_memory.md R33, R34) and the instructions that make them or compute their address
(42_index_and_memory.md R103 to R106). -/

namespace Sys2Proof.Machine

/-! ## `MemRead` and `MemWrite` -/

section

variable {s : State} {kind : AccessKind} {addr n : Nat} {v : List Byte}

theorem memRead_ok (h : n = 0 ∨ addr + n ≤ 4096) : s.memRead kind addr n = .ok (s.mem.bytes addr n) := by
  rcases memRead_cases s kind addr n with ⟨-, ok⟩ | ⟨hn, hout, -⟩
  · exact ok
  · omega

theorem memRead_error (hn : 0 < n) (h : 4096 < addr + n) :
    s.memRead kind addr n = .error (.addressOutOfRange kind (max addr 4096)) := by
  rcases memRead_cases s kind addr n with ⟨hrange, -⟩ | ⟨-, -, error⟩
  · omega
  · exact error

theorem memWrite_ok (h : addr + v.length ≤ 4096) : s.memWrite addr v = .ok { s with mem := s.mem.putBytes addr v } := by
  rcases memWrite_cases s addr v with ⟨-, ok⟩ | ⟨-, hout, -⟩
  · exact ok
  · omega

theorem memWrite_error (hn : 0 < v.length) (h : 4096 < addr + v.length) :
    s.memWrite addr v = .error (.addressOutOfRange .store (max addr 4096)) := by
  rcases memWrite_cases s addr v with ⟨hrange, -⟩ | ⟨-, -, error⟩
  · omega
  · exact error

end

section

variable {m : Memory} (hm : m.wf) (a : Nat) (v : List Byte)

include hm

theorem Memory.byte_putBytes_add {j : Nat} (hj : j < v.length) : (m.putBytes a v).byte (a + j) = v.getD j 0 := by
  rw [Memory.byte_putBytes hm.1, if_pos ⟨Nat.le_add_right a j, Nat.add_lt_add_left hj a⟩, Nat.add_sub_cancel_left]

theorem Memory.byte_putBytes_of_outside {b : Nat} (hb : ¬(a ≤ b ∧ b < a + v.length)) : (m.putBytes a v).byte b = m.byte b := by
  rw [Memory.byte_putBytes hm.1, if_neg hb]

/-- The bytes written at an address are those read there. -/
theorem Memory.bytes_putBytes : (m.putBytes a v).bytes a v.length = v := by
  refine List.ext_getElem (Memory.length_bytes ..) fun j _ hj => ?_
  rw [← List.getD_eq_getElem _ 0, Memory.getD_bytes, if_pos hj, Memory.byte_putBytes_add hm a v hj,
    List.getD_eq_getElem v 0 hj]

end

/-- Settles O10: in range by the law of writing a list of bytes, out of range by the fault of the check, which an access of no
byte passes. -/
theorem readAfterWrite : Obligations.ReadAfterWrite := by
  intro s addr v kind hm
  refine ⟨fun hrange => ⟨_, memWrite_ok hrange, ?_, fun _ => Memory.byte_putBytes_of_outside hm addr v⟩,
    fun hn hout => ⟨memWrite_error hn hout, memRead_error hn hout⟩, memRead_ok (.inl rfl)⟩
  rw [memRead_ok (.inr hrange), Memory.bytes_putBytes hm]

/-! ## The stores -/

/-- A store of `v` at `I`, all in range, and the advance: the bytes stand in memory, and no other byte or element has
changed. -/
theorem completes_store {s : State} {o : Host.Outcome State Fault Refusal} {v : List Byte} {n : Nat} (hm : s.mem.wf)
    (ho : o = attempt (s.memWrite s.I.toNat v) fun t => .next t.advance) (hv : v.length = n) (hrange : s.I.toNat + n ≤ 4096) :
    Completes o fun t => (∀ j < n, t.mem.byte (s.I.toNat + j) = v.getD j 0) ∧ t.pc = s.pc + 2 ∧
      Frame.holds { storeBase := s.I.toNat, storeLength := n } s t := by
  subst hv
  rw [memWrite_ok hrange, attempt_ok] at ho
  exact ⟨_, ho, fun _ => Memory.byte_putBytes_add hm s.I.toNat v, rfl, fun _ _ => rfl, fun _ => rfl, fun _ => ⟨rfl, rfl⟩,
    fun _ => Memory.byte_putBytes_of_outside hm s.I.toNat v, by simp⟩

/-- A number below 256 is that of its byte. -/
theorem toNat_ofNat_byte {k : Nat} (h : k < 256) : (BitVec.ofNat 8 k).toNat = k := by
  rw [BitVec.toNat_ofNat, Nat.mod_eq_of_lt h]

/-- Settles O31: the three bytes stored are the digits of a number below 256; the fault is that of the table. -/
theorem storeDecimalDigits : Obligations.StoreDecimalDigits := by
  refine fun s x hm => ⟨fun hrange => ?_, fun hout => exec_eq_fault_iff.2 (if_pos hout)⟩
  obtain ⟨t, ht, hbytes, hpc, hframe⟩ : Completes (exec (.ldB x) s) _ := completes_store (n := 3) hm rfl rfl hrange
  have small := (s.readV x).isLt
  refine ⟨t, ht, ?hundreds, ?tens, ?units, hpc, hframe⟩
  case hundreds => exact (congrArg BitVec.toNat (hbytes 0 (by decide))).trans (toNat_ofNat_byte (by omega))
  case tens => exact (congrArg BitVec.toNat (hbytes 1 (by decide))).trans (toNat_ofNat_byte (by omega))
  case units => exact (congrArg BitVec.toNat (hbytes 2 (by decide))).trans (toNat_ofNat_byte (by omega))

/-- Settles O32: byte `i` of the group stored is `V[i]`; the fault is that of the table. -/
theorem storeRegisterGroup : Obligations.StoreRegisterGroup := by
  refine fun s x hm => ⟨fun hrange => ?_, fun hout => exec_eq_fault_iff.2 (if_pos hout)⟩
  obtain ⟨t, ht, hbytes, hpc, hframe⟩ : Completes (exec (.storeRegs x) s) _ :=
    completes_store hm rfl (s.length_readGroup x) hrange
  refine ⟨t, ht, fun i hi => ?_, hpc, hframe⟩
  rw [hbytes i.val (Nat.lt_succ_of_le hi), State.getD_readGroup s hi]

/-! ## The group load and the address of a glyph -/

/-- A group load and the advance change registers and `pc`, and nothing else. -/
theorem frame_writeGroup_advance (s : State) (m : List Byte) :
    Frame.holds { regs := List.finRange 16 } s (s.writeGroup m).advance :=
  ⟨fun r hr => absurd (List.mem_finRange r) hr, by simp⟩

/-- Settles O33: the registers of the group are loaded, and `Fx65` is no writer of those above; the fault is that of the
table. -/
theorem loadRegisterGroup : Obligations.LoadRegisterGroup := by
  refine fun s x => ⟨fun hrange => ?_, fun hout => exec_eq_fault_iff.2 (if_pos hout)⟩
  obtain ⟨t, ht⟩ := exec_next_of_tableFault_none (i := .loadRegs x) (if_neg (Nat.not_le.2 hrange))
  have above : ∀ i : Reg, x < i → t.readV i = s.readV i := fun i hi => by
    by_contra hchanged
    exact absurd (writersOfEachRegister _ s t i ht hchanged) (Fin.not_le.2 hi)
  refine ⟨t, ht, fun i hi => readV_of_exec_loadRegs ht hi, above, ?_⟩
  obtain ⟨-, rfl⟩ := exec_loadRegs_next ht
  exact ⟨rfl, frame_writeGroup_advance s _⟩

/-- Five times a byte fits in 16 bits. -/
theorem toNat_zextByte_mul_glyphBytes (v : Byte) : (zextByte v * BitVec.ofNat 16 Config.glyphBytes).toNat = v.toNat * 5 := by
  have small := v.isLt
  have five : (BitVec.ofNat 16 Config.glyphBytes).toNat = 5 := rfl
  rw [BitVec.toNat_mul, toNat_zextByte, five]
  omega

/-- Settles O30: `Fx29` writes `I` alone, and the product does not wrap. -/
theorem glyphAddress : Obligations.GlyphAddress := fun s x =>
  completes_index rfl fun _ hI => hI ▸ toNat_zextByte_mul_glyphBytes (s.readV x)

end Sys2Proof.Machine
end

section
/-! PROOFS. The draw (43_display.md R111 to R113): its final state, its fault, and the destination index in screen terms. -/

namespace Sys2Proof.Machine

/-- A draw and the advance change the framebuffer, `V[F]` and `pc`, and nothing else. -/
theorem frame_draw_advance (s : State) (fb : Framebuffer) (flag : Byte) :
    Frame.holds { regs := [regF], display := true } s ({ s with fb := fb }.writeV regF flag).advance :=
  ⟨fun _ hr => State.readV_writeV_of_ne _ flag (List.ne_of_not_mem_cons hr), by simp⟩

/-- Settles O36: the sprite is in range, so the draw completes; it inverts the pixels it covers, and its flag tells whether one
of them was on. -/
theorem drawFinalState : Obligations.DrawFinalState := by
  intro s x y n hn hrange
  have in_range : ¬(n ≥ 1 ∧ s.I.toNat + n - 1 ≥ 4096) := by omega
  have on_screen : n ≤ 32 := by omega
  obtain ⟨t, ht⟩ := exec_next_of_tableFault_none (i := .drw x y n) (if_neg in_range)
  have pixels {d : Nat} (hd : d < 2048) := pixel_of_exec_drw on_screen ht hd
  have flag := readV_regF_of_exec_drw on_screen ht
  have hit : (spritePixels s x y n).any (pixel s.fb) = true ↔ ∃ d, Covers s x y n d ∧ pixel s.fb d = true := by
    simp only [List.any_eq_true, mem_spritePixels]
  refine ⟨t, ht, fun d hd => ⟨fun hcovers => ?covered, fun hcovers => ?uncovered⟩, fun h => ?collision,
    fun h => ?no_collision, ?frame⟩
  case covered => rw [pixels hd, decide_eq_true (mem_spritePixels.2 hcovers), Bool.true_xor]
  case uncovered => rw [pixels hd, decide_eq_false (hcovers ∘ mem_spritePixels.1), Bool.false_xor]
  case collision => rw [flag, hit.2 h]; rfl
  case no_collision => rw [flag, Bool.eq_false_iff.2 (h ∘ hit.1)]; rfl
  case frame =>
    obtain ⟨drawn, -, rfl⟩ := exec_drw_next ht
    exact ⟨rfl, frame_draw_advance s _ _⟩

/-- Settles O37: the condition of the fault in the table is that the sprite reaches 4096. -/
theorem drawOutOfRangeFaults : Obligations.DrawOutOfRangeFaults := fun _ _ _ _ hn hout =>
  exec_eq_fault_iff.2 (if_pos ⟨hn, Nat.le_sub_one_of_lt hout⟩)

/-- Settles O39: 64 divides 2048, so the reduction keeps the column, and the row is reduced modulo 2048 / 64. -/
theorem drawWrapsByFlattenedIndex : Obligations.DrawWrapsByFlattenedIndex := by
  intro xs ys r c
  simp only [pixelIndex, Config.fbWidth, Config.fbSize]
  omega

end Sys2Proof.Machine
end

section
/-! PROOFS. The key instructions (44_random_keys_timers.md R122 to R124). -/

namespace Sys2Proof.Machine

/-! ## The skips on a key -/

/-- A register that holds the number of a key reads the level of that key. -/
theorem keyDownAt_eq_key {s : State} {v : Byte} {k : Fin 16} (hk : v.toNat = k.val) : s.keyDownAt v = .ok s.key[k.val] := by
  obtain ⟨j, hj⟩ := k
  obtain rfl : v.toNat = j := hk
  exact keyDownAt_ok hj

theorem exec_skp_next {s : State} {x : Reg} {k : Fin 16} (hk : (s.readV x).toNat = k.val) :
    exec (.skp x) s = .next (s.skipIf s.key[k.val]) := by
  show attempt (s.keyDownAt _) _ = _
  rw [keyDownAt_eq_key hk, attempt_ok]

theorem exec_sknp_next {s : State} {x : Reg} {k : Fin 16} (hk : (s.readV x).toNat = k.val) :
    exec (.sknp x) s = .next (s.skipIf !s.key[k.val]) := by
  show attempt (s.keyDownAt _) _ = _
  rw [keyDownAt_eq_key hk, attempt_ok]

/-- Settles O41: below 16 each of the two is a conditional skip on the level of the key; from 16 on the fault is that of the
table. -/
theorem keySkips : Obligations.KeySkips := by
  refine fun s x => ⟨fun k hk => ?_, fun hk => ⟨exec_eq_fault_iff.2 (if_pos hk), exec_eq_fault_iff.2 (if_pos hk)⟩⟩
  refine ⟨⟨_, exec_skp_next hk, rfl, frame_jump s _⟩, ⟨_, exec_sknp_next hk, ?_, frame_jump s _⟩⟩
  simp only [State.skipIf_pc, Bool.not_eq_true']

/-! ## The wait for a key -/

theorem lowestKeyDown_eq_none {s : State} (h : ∀ k : Fin 16, s.key[k.val] = false) : s.lowestKeyDown = none := by
  cases hkey : s.lowestKeyDown with
  | none => rfl
  | some k =>
    obtain ⟨hdown, -⟩ := lowestKeyDown_some hkey
    cases (h k).symm.trans hdown

/-- The scan finds the key that is down with every lower one up: of two such keys neither is lower. -/
theorem lowestKeyDown_eq_some {s : State} {k : Fin 16} (hdown : s.key[k.val] = true)
    (hlower : ∀ j : Fin 16, j < k → s.key[j.val] = false) : s.lowestKeyDown = some k := by
  obtain ⟨l, hl⟩ := lowestKeyDown_isSome hdown
  obtain ⟨hdown', hlower'⟩ := lowestKeyDown_some hl
  rcases lt_trichotomy l k with hlt | rfl | hgt
  · cases (hlower l hlt).symm.trans hdown'
  · exact hl
  · cases (hlower' k hgt).symm.trans hdown

theorem exec_ldVK_none {s : State} (h : s.lowestKeyDown = none) (x : Reg) : exec (.ldVK x) s = .next s := by
  show execLdVK x s = _
  rw [execLdVK, h]

theorem exec_ldVK_some {s : State} {k : Fin 16} (h : s.lowestKeyDown = some k) (x : Reg) :
    exec (.ldVK x) s = .next (s.writeV x (BitVec.ofNat 8 k.val)).advance := by
  show execLdVK x s = _
  rw [execLdVK, h]

/-- Settles O42: the scan finds no key, or the lowest one, whose number fits in a byte. -/
theorem waitForKey : Obligations.WaitForKey := fun _ x =>
  ⟨fun hup => exec_ldVK_none (lowestKeyDown_eq_none hup) x, fun _ hdown hlower =>
    completes_writeV (exec_ldVK_some (lowestKeyDown_eq_some hdown hlower) x) fun _ hv => hv ▸ toNat_ofNat_byte (by omega)⟩

end Sys2Proof.Machine
end

section
/-! PROOFS. The jump to itself and the off-by-one of the delay timer (70_reset_and_hazards.md R168, R171). -/

namespace Sys2Proof.Machine

/-! ## The end of a run -/

theorem State.jump_self (s : State) : s.jump s.pc = s := rfl

/-- With both timers 0, the tick changes nothing. -/
theorem State.tick_eq_self {s : State} (hDT : s.DT = 0) (hST : s.ST = 0) : s.tick = s := by
  obtain ⟨⟩ := s
  obtain rfl := hDT
  obtain rfl := hST
  rfl

/-- Settles O59: the jump leaves `pc` where it is, so the cycle is its tick. -/
theorem jumpToSelfIsFixedPoint : Obligations.JumpToSelfIsFixedPoint := by
  rintro s ⟨nnn, hjump, hself⟩
  have target : zextAddr nnn = s.pc := BitVec.eq_of_toNat_eq ((toNat_zextAddr nnn).trans hself)
  have stays : exec (.jp nnn) s = .next s := by
    show Host.Outcome.next (s.jump (zextAddr nnn)) = _
    rw [target, State.jump_self]
  have ticks : step s = .next s.tick := step_of_executes hjump stays
  exact ⟨ticks, fun hDT hST => ticks.trans (congrArg _ (State.tick_eq_self hDT hST))⟩

/-! ## The timer off-by-one -/

/-- The cycle of an `Fx15` sets the timer and counts it down once (R126, R150). -/
theorem toNat_DT_of_executes_ldDTV {s u : State} {x : Reg} (hset : s.executes (.ldDTV x)) (hsu : CompletesTo s u) :
    u.DT.toNat = (s.readV x).toNat - 1 := by
  cases hsu.symm.trans (step_of_executes hset rfl)
  exact countDown_toNat (s.readV x)

/-- The cycle of an `Fx07` copies the timer as it stands before its tick (R125). -/
theorem completesTo_of_executes_ldVDT {t : State} {y : Reg} (hread : t.executes (.ldVDT y)) :
    ∃ v, CompletesTo t v ∧ v.readV y = t.DT :=
  ⟨_, step_of_executes hread rfl, t.readV_writeV_self y t.DT⟩

/-- Settles O60: one count in the cycle of the `Fx15`, `k - 1` in the cycles after it by the decay law, and none before the
`Fx07` reads. -/
theorem delayTimerOffByOne : Obligations.DelayTimerOffByOne := by
  intro s u t x y k hk hset hsu hrun hread
  obtain ⟨v, htv, hv⟩ := completesTo_of_executes_ldVDT hread
  refine ⟨v, htv, ?_⟩
  calc (v.readV y).toNat
      = t.DT.toNat := by rw [hv]
    _ = u.DT.toNat - (k - 1) := countsDown_DT.toNat_of_runsAvoiding hrun
    _ = (s.readV x).toNat - 1 - (k - 1) := by rw [toNat_DT_of_executes_ldDTV hset hsu]
    _ = (s.readV x).toNat - k := by omega

end Sys2Proof.Machine
end
